-- ==== Sys2Proof/Word.lean ====
section
/-! DEFINITION. The value types of R10 and R7: bytes, words, and the fixed-size byte and word strings. -/

namespace Sys2Proof

/-- A byte, 0 to 255 (R10). -/
abbrev Byte := BitVec 8

/-- A 32-bit unsigned word (R7, R10). The `+32` of R61 is `BitVec` addition, and `^`, `&`, `|`, `~`
of R62 are `^^^`, `&&&`, `|||`, `~~~`. -/
abbrev Word := BitVec 32

/-- The chaining value: "exactly 8 unsigned 32-bit words" (R7, R15). -/
abbrev ChainState := Vector Word 8

/-- A Block: "exactly 64 bytes" (R7, R80). -/
abbrev Block := Vector Byte 64

/-- A digest: "exactly 32 bytes" (R7). -/
abbrev Digest := Vector Byte 32

/-- A frame: the byte string the transport delivers as one unit (R32, R46). -/
abbrev Frame := List Byte

end Sys2Proof
end

