-- ==== Sys2Proof/Machine/Operands.lean ====
section
/-! DEFINITION. Byte order and operand forms: every multi-byte quantity of this hardware is
big-endian, inside the algorithm (R34) and on both ports (R35). There are no addressing modes and no
register-number fields (R50). -/

namespace Sys2Proof.Machine

/-- `BE32(w)`: the bytes `w[31:24], w[23:16], w[15:8], w[7:0]` (R11). -/
def toBE32 (w : Word) : List Byte :=
  [w.extractLsb' 24 8, w.extractLsb' 16 8, w.extractLsb' 8 8, w.extractLsb' 0 8]

/-- `be32(b)`: the word `b[0]*2^24 + b[1]*2^16 + b[2]*2^8 + b[3]` (R11). -/
def ofBE32 (b0 b1 b2 b3 : Byte) : Word :=
  BitVec.ofNat 32 (b0.toNat * 2 ^ 24 + b1.toNat * 2 ^ 16 + b2.toNat * 2 ^ 8 + b3.toNat)

/-- `BE64(v)`: byte `i` is `(v div 2^(8*(7-i))) mod 256` (R11). -/
def toBE64 (v : BitVec 64) : List Byte :=
  [v.extractLsb' 56 8, v.extractLsb' 48 8, v.extractLsb' 40 8, v.extractLsb' 32 8,
   v.extractLsb' 24 8, v.extractLsb' 16 8, v.extractLsb' 8 8, v.extractLsb' 0 8]

/-- `be64(b)`, the inverse of `BE64` (R11). -/
def ofBE64 (b0 b1 b2 b3 b4 b5 b6 b7 : Byte) : BitVec 64 :=
  BitVec.ofNat 64 (b0.toNat * 2 ^ 56 + b1.toNat * 2 ^ 48 + b2.toNat * 2 ^ 40 + b3.toNat * 2 ^ 32 +
    b4.toNat * 2 ^ 24 + b5.toNat * 2 ^ 16 + b6.toNat * 2 ^ 8 + b7.toNat)

/-- The `n` field of a command word from frame bytes 1, 2, 3:
`n = frame[1]*65536 + frame[2]*256 + frame[3]` (R47). -/
def countField (b1 b2 b3 : Byte) : Nat := b1.toNat * 65536 + b2.toNat * 256 + b3.toNat

/-- The digest operand of LDST: the first 32 of its 40 payload bytes, as they stand (R50). -/
def digestOperand (p : List Byte) (h : p.length = 40) : Digest :=
  ⟨(p.take 32).toArray, by simp [h]⟩

/-- The length operand of LDST: `be64(p[32..40))` (R50, R54). -/
def lengthOperand (p : List Byte) (h : p.length = 40) : BitVec 64 :=
  ofBE64 p[32] p[33] p[34] p[35] p[36] p[37] p[38] p[39]

/-- The block operand of CBLK: its 64 payload bytes (R50). -/
def blockOperand (p : List Byte) (h : p.length = 64) : Block :=
  ⟨p.toArray, by simp [h]⟩

end Sys2Proof.Machine
end

