-- ==== Sys2Proof/Syntax.lean ====
section
/-! DEFINITION. The eight commands of R49, one constructor per row of spec/opcode_table.json. -/

namespace Sys2Proof

/-- A command with its operands as R50 takes them from the frame. Operands of fixed length carry
their length in the type; PUSH's payload is bounded in `Instr.wellFormed`. -/
inductive Instr where
  /-- INIT, opcode 0x01 (R112). -/
  | init
  /-- LDST, opcode 0x02 (R128): a digest and the byte length `l0` already hashed into it. -/
  | ldst (d : Digest) (l0 : BitVec 64)
  /-- PUSH, opcode 0x03 (R84): message bytes, earliest first. -/
  | push (m : List Byte)
  /-- FINAL, opcode 0x04 (R86). -/
  | final
  /-- RDDG, opcode 0x05 (R116). -/
  | rddg
  /-- CBLK, opcode 0x06 (R103): one Block. -/
  | cblk (blk : Block)
  /-- RDSR, opcode 0x07 (R119). -/
  | rdsr
  /-- RDLN, opcode 0x08 (R120). -/
  | rdln
  deriving DecidableEq, Repr

end Sys2Proof
end

