-- ==== Sys2Proof/WellFormed.lean ====
section
/-! DEFINITION. Which terms of `Instr` are commands: those a frame can carry. -/

namespace Sys2Proof

/-- The largest payload of one PUSH, `2^24 - 1` bytes: the width of the `n` field (R47, R84, D22). -/
def maxPush : Nat := 16777215

/-- A command whose operands fit its encoding. Only PUSH has an operand whose length the type does
not fix. -/
def Instr.wellFormed : Instr → Bool
  | .init => true
  | .ldst _ _ => true
  | .push m => decide (m.length ≤ maxPush)
  | .final => true
  | .rddg => true
  | .cblk _ => true
  | .rdsr => true
  | .rdln => true

end Sys2Proof
end

