-- ==== Sys2Proof/Decode.lean ====
section
/-! DEFINITION. The decoder of R54, total on byte strings, and the encoder of R55, both over the one
format CMD (R46): an opcode byte, the 24-bit field `n`, the payload. -/

namespace Sys2Proof

open Sys2Proof.Machine

/-- Why a frame is `Illegal`. The spec has the one result `Illegal` (R54); the names are the model's
and nothing the machine does depends on them (log 9). -/
inductive IllegalFrame where
  /-- shorter than 4 bytes (R52) -/
  | tooShort
  /-- nonzero `n` outside PUSH (R51 b) -/
  | nonzeroCount
  /-- an opcode outside 0x01..0x08 (R51 a) -/
  | unknownOpcode
  /-- a payload length that is not the command's (R52) -/
  | wrongLength
  deriving DecidableEq, Repr

/-- What `decode` answers: a command, or `Illegal` with the model's name for the reason. -/
inductive Decoded where
  | command (i : Instr)
  | illegal (why : IllegalFrame)
  deriving DecidableEq, Repr

/-- A command without payload: legal exactly with no payload byte (R48, R54). -/
def decodeBare (i : Instr) (p : List Byte) : Decoded :=
  if p.length = 0 then .command i else .illegal .wrongLength

/-- LDST's payload: 32 digest bytes, then `BE64(L0)` (R48, R54). -/
def decodeLdst (p : List Byte) : Decoded :=
  if h : p.length = 40 then .command (.ldst (digestOperand p h) (lengthOperand p h))
  else .illegal .wrongLength

/-- CBLK's payload: the 64 bytes of one Block (R48, R54). -/
def decodeCblk (p : List Byte) : Decoded :=
  if h : p.length = 64 then .command (.cblk (blockOperand p h)) else .illegal .wrongLength

/-- PUSH's payload: exactly `n` message bytes (R48, R54). -/
def decodePush (n : Nat) (p : List Byte) : Decoded :=
  if p.length = n then .command (.push p) else .illegal .wrongLength

/-- The decoder, in the order of the tests of R54. -/
def decode : Frame → Decoded
  | op :: b1 :: b2 :: b3 :: p =>
    let n := countField b1 b2 b3
    if op = 0x03#8 then decodePush n p
    else if n ≠ 0 then .illegal .nonzeroCount
    else if op = 0x01#8 then decodeBare .init p
    else if op = 0x02#8 then decodeLdst p
    else if op = 0x04#8 then decodeBare .final p
    else if op = 0x05#8 then decodeBare .rddg p
    else if op = 0x06#8 then decodeCblk p
    else if op = 0x07#8 then decodeBare .rdsr p
    else if op = 0x08#8 then decodeBare .rdln p
    else .illegal .unknownOpcode
  | _ => .illegal .tooShort

/-- The opcode of a command (R49). -/
def opcode : Instr → Byte
  | .init => 0x01#8
  | .ldst _ _ => 0x02#8
  | .push _ => 0x03#8
  | .final => 0x04#8
  | .rddg => 0x05#8
  | .cblk _ => 0x06#8
  | .rdsr => 0x07#8
  | .rdln => 0x08#8

/-- The payload of a command (R48). -/
def payload : Instr → List Byte
  | .init => []
  | .ldst d l0 => d.toList ++ toBE64 l0
  | .push m => m
  | .final => []
  | .rddg => []
  | .cblk blk => blk.toList
  | .rdsr => []
  | .rdln => []

/-- The `n` field: PUSH's payload byte count, 0 for every other command (R46). -/
def countOf : Instr → Nat
  | .push m => m.length
  | _ => 0

/-- The command word: `opcode` in bits 31:24, `n` in bits 23:0 (R46). R55 encodes a PUSH of at most
`2^24 - 1` bytes; for a longer one, which is not well-formed, the model wraps `n` modulo `2^24` (DESIGN
CHOICE, safe, log 21). -/
def commandWord (i : Instr) : Word :=
  BitVec.ofNat 32 ((opcode i).toNat * 2 ^ 24 + countOf i % 2 ^ 24)

/-- The encoder of R55: `BE32(word) ‖ payload` (R46). A PUSH longer than `2^24 - 1` bytes has no frame in
the spec; what this answers for one is the model's choice (log 21). -/
def encode (i : Instr) : Frame := toBE32 (commandWord i) ++ payload i

/-- `need(word)` of R52: the payload length of the word's command (R48), none for a word that is no
command's (R51). -/
def need (w : Word) : Option Nat :=
  let op := w.extractLsb' 24 8
  let n := (w.extractLsb' 0 24).toNat
  if op = 0x03#8 then some n
  else if n ≠ 0 then none
  else if op = 0x02#8 then some 40
  else if op = 0x06#8 then some 64
  else if op = 0x01#8 ∨ op = 0x04#8 ∨ op = 0x05#8 ∨ op = 0x07#8 ∨ op = 0x08#8 then some 0
  else none

/-- The lowest `k` bytes of a number, lowest first. -/
def lowBytes : Nat → Nat → List Byte
  | 0, _ => []
  | k + 1, w => BitVec.ofNat 8 w :: lowBytes k (w / 256)

/-- The frame of an instruction whose bits are `w`, numbered as spec/opcode_table.json numbers them:
the command word is bits 31:0 and is sent most significant byte first (R46); payload byte `k` is bits
`39+8k : 32+8k`, and every bit from `nbits` up is 0 (log 10). The frame is as long as the word's
command calls for (R52), 4 bytes where the word is no command's. -/
def frameOfTableWord (nbits w : Nat) : Frame :=
  let bytes := lowBytes (nbits / 8) w
  let byteAt := fun k => bytes.getD k 0#8
  byteAt 3 :: byteAt 2 :: byteAt 1 :: byteAt 0 ::
    (List.range ((need (ofBE32 (byteAt 3) (byteAt 2) (byteAt 1) (byteAt 0))).getD 0)).map fun k => byteAt (4 + k)

/-- The command this decoder reads from an instruction whose bits are `w`. -/
def decodeTableWord (nbits w : Nat) : Option Instr :=
  match decode (frameOfTableWord nbits w) with
  | .command i => some i
  | .illegal _ => none

end Sys2Proof
end

