-- ==== Sys2Proof/Config.lean ====
section
/-! DEFINITION. What the spec leaves free. `MAXLEN` and the PUSH limit are decided values, not
parameters (92_eei_decisions.md), and stand with the operations that use them; `N_INSTANCES` is the
index of `Machine/System.lean`; no rule depends on `PORT_SIGNALLING` or `LAT_*`. -/

namespace Sys2Proof

/-- FREE VALUE (log 1): what `V[0..7]` holds after the reset numbered `k`. R25: "no specified value
after reset"; R26: a model must not give it one, but may "carry an arbitrary value that no rule can
observe". It has no body that a proof can see. -/
opaque Config.resetV : Nat → ChainState

end Sys2Proof
end

