-- ==== Sys2Proof/Machine/State.lean ====
section
/-! DEFINITION. The state of one block instance as plain data, the reasons a step can stop, and the
state after reset. -/

namespace Sys2Proof.Machine

/-- `PHASE`, a 2-bit field with three legal values; value 3 never occurs (R22, S4). Its codes are in
`Flags.lean`. -/
inductive Phase where
  /-- 0: no computation is open. -/
  | idle
  /-- 1: a computation is open. -/
  | active
  /-- 2: padding has been applied. -/
  | fin
  deriving DecidableEq, Repr

/-- The five causes the block can raise (R136). They are recorded in `ERRC`; their codes are in
`Flags.lean`. -/
inductive Cause where
  | illegalCmd
  | badPhase
  | badOperand
  | blockMisaligned
  | lenOverflow
  deriving DecidableEq, Repr

/-- Reasons the machine stops with a fault: none. Every fault of this hardware is a recorded state
(`ERR`, `ERRC`) after which it goes on answering RDSR and RDLN (R141, R142), so a step never ends in a
fault outcome (log 8). -/
inductive Fault where
  deriving DecidableEq, Repr

/-- Reasons an instruction has no meaning. -/
inductive Refusal where
  /-- Raised by an arm of `exec` whose instruction has no meaning yet; no arm raises it now. Safe. -/
  | notModelled (mnemonic : String)
  deriving DecidableEq, Repr

/-- One block instance. The first six fields are the complete architectural state of R13; the next
three are what stands on its ports (R32, R33, R156); the last is the model's own. -/
structure State where
  /-- `V[0..7]`, the chaining value (R15). -/
  v : ChainState
  /-- `BLK`: the bytes of the block buffer that have a specified value, `BLK[0]` first. In ACTIVE
  they are the tail (R18, R20); otherwise no byte of `BLK` has one (log 2). -/
  tail : List Byte
  /-- `LEN`, the message length in bytes so far (R19). -/
  len : BitVec 64
  /-- `PHASE` (R22). -/
  phase : Phase
  /-- `ERR`, the sticky fault flag (R21). -/
  err : Bool
  /-- `ERRC`, the cause code of the first fault (R21). -/
  errc : BitVec 4
  /-- The command port: whole frames delivered and not yet taken, oldest first (R32, log 4). -/
  cmdPort : List Frame
  /-- The response port: responses produced and not yet read by the host, oldest first (R33, log 5). -/
  respPort : List (List Byte)
  /-- The reset input: asserted, not yet performed (R156, log 6). -/
  rst : Bool
  /-- The model's own: how many resets came after the first; the index of the free value that `V`
  holds after a reset (log 1). -/
  resets : Nat
  deriving DecidableEq, Repr

/-- The machine right after reset (R25, R156). `V` holds a free value (log 1) and no byte of `BLK`
has a specified value (log 2). The spec gives the response port no content here; the model starts it
empty (DESIGN CHOICE, unsafe, log 18). -/
def State.reset : State where
  v := Config.resetV 0
  tail := []
  len := 0#64
  phase := .idle
  err := false
  errc := 0#4
  cmdPort := []
  respPort := []
  rst := false
  resets := 0

end Sys2Proof.Machine
end

