-- ==== Sys2Proof/Machine/Flags.lean ====
section
/-! DEFINITION. The codes of `PHASE` and `ERRC` and the read-only view `STATUS`. The block has no
arithmetic condition codes (R24). -/

namespace Sys2Proof.Machine

/-- `IDLE = 0`, `ACTIVE = 1`, `FIN = 2` (R22). -/
def Phase.code : Phase → Nat
  | .idle => 0
  | .active => 1
  | .fin => 2

/-- The 4-bit cause code (R136). -/
def Cause.code : Cause → BitVec 4
  | .illegalCmd => 1#4
  | .badPhase => 2#4
  | .badOperand => 3#4
  | .blockMisaligned => 4#4
  | .lenOverflow => 5#4

/-- `STATUS = PHASE + 4*ERR + 256*ERRC + 65536*(LEN mod 64)` (R23). -/
def State.status (s : State) : Word :=
  BitVec.ofNat 32
    (s.phase.code + 4 * s.err.toNat + 256 * s.errc.toNat + 65536 * (s.len.toNat % 64))

end Sys2Proof.Machine
end

