-- ==== Sys2Proof/Machine/Words.lean ====
section
/-! DEFINITION. The primitive functions of 40_word_arithmetic.md: pure, total, over 32-bit words. -/

namespace Sys2Proof.Machine

/-- `ROTL(x, n)`: left rotation by `n` bit positions (R63). The hardware never forms an amount of 32
or more (R64); the model's function reduces the amount mod 32 there, as U1 asks (log 11). -/
def rotl (x : Word) (n : Nat) : Word := x.rotateLeft n

/-- `P0(x) = x ^ ROTL(x, 9) ^ ROTL(x, 17)` (R65). -/
def P0 (x : Word) : Word := x ^^^ rotl x 9 ^^^ rotl x 17

/-- `P1(x) = x ^ ROTL(x, 15) ^ ROTL(x, 23)` (R66). -/
def P1 (x : Word) : Word := x ^^^ rotl x 15 ^^^ rotl x 23

/-- `FF(j, x, y, z)`: XOR in rounds 0..15, majority in rounds 16..63 (R67). -/
def FF (j : Nat) (x y z : Word) : Word :=
  if j < 16 then x ^^^ y ^^^ z else (x &&& y) ||| (x &&& z) ||| (y &&& z)

/-- `GG(j, x, y, z)`: XOR in rounds 0..15, bitwise choice in rounds 16..63, `~x & z` read as
`(~x) & z` (R68, log 11). -/
def GG (j : Nat) (x y z : Word) : Word :=
  if j < 16 then x ^^^ y ^^^ z else (x &&& y) ||| (~~~x &&& z)

/-- The round constant `T[j]` (R69). -/
def roundConst (j : Nat) : Word := if j < 16 then 0x79CC4519#32 else 0x7A879D8A#32

/-- The rotated round constant `TR[j] = ROTL(T[j], j mod 32)` (R70, R162). -/
def rotatedConst (j : Nat) : Word := rotl (roundConst j) (j % 32)

end Sys2Proof.Machine
end

