-- ==== Sys2Proof/Machine/Compress.lean ====
section
/-! DEFINITION. The compression function of 42_compression.md: message expansion, 64 rounds, XOR
feedback (R91). Round registers and schedule are local values, not state (R16, R17). -/

namespace Sys2Proof.Machine

/-- `W[0..15]`: the block's 16 big-endian words (R92). -/
def blockWords (blk : Block) : Vector Word 16 :=
  Vector.ofFn fun i : Fin 16 =>
    ofBE32 blk[4 * i.val] blk[4 * i.val + 1] blk[4 * i.val + 2] blk[4 * i.val + 3]

/-- The first `16 + k` schedule words, `W[j]` appended for `j = 16, 17, ...` in ascending order (R93).
With `j = 16 + k` the taps `j-16, j-9, j-3, j-13, j-6` are `k, k+7, k+13, k+3, k+10`. -/
def expand (w : Vector Word 16) : (k : Nat) → Vector Word (16 + k)
  | 0 => w
  | k + 1 =>
    let p := expand w k
    p.push (P1 (p[k] ^^^ p[k + 7] ^^^ rotl p[k + 13] 15) ^^^ rotl p[k + 3] 7 ^^^ p[k + 10])

/-- The expanded schedule `W[0..67]` of a block (R92, R93). -/
def schedule (blk : Block) : Vector Word 68 := expand (blockWords blk) 52

/-- `W′[j] = W[j] ^ W[j+4]` for `j = 0..63` (R95). -/
def derivedWord (w : Vector Word 68) (j : Nat) (h : j < 64) : Word := w[j] ^^^ w[j + 4]

/-- The eight round registers `A..H`, local to one compression (R16). -/
structure Regs where
  a : Word
  b : Word
  c : Word
  d : Word
  e : Word
  f : Word
  g : Word
  h : Word
  deriving DecidableEq, Repr

/-- "registers `A..H` initialized from `state[0..7]`" (R98). -/
def startRegs (v : ChainState) : Regs :=
  { a := v[0], b := v[1], c := v[2], d := v[3], e := v[4], f := v[5], g := v[6], h := v[7] }

/-- The registers as eight words, in the order of the feedback (R101). -/
def regWords (r : Regs) : ChainState := #v[r.a, r.b, r.c, r.d, r.e, r.f, r.g, r.h]

/-- One round, all registers updated together (R99, R100): `w` is `W[j]`, `w'` is `W′[j]`. -/
def cfRound (j : Nat) (r : Regs) (w w' : Word) : Regs :=
  let ss1 := rotl (rotl r.a 12 + r.e + rotatedConst j) 7
  let ss2 := ss1 ^^^ rotl r.a 12
  let tt1 := FF j r.a r.b r.c + r.d + ss2 + w'
  let tt2 := GG j r.e r.f r.g + r.h + ss1 + w
  { a := tt1, b := r.a, c := rotl r.b 9, d := r.c, e := P0 tt2, f := r.e, g := rotl r.f 19, h := r.g }

/-- The registers after rounds `0, ..., k-1`, in ascending order (R99). -/
def roundsUpTo (w : Vector Word 68) (r : Regs) : (k : Nat) → k ≤ 64 → Regs
  | 0, _ => r
  | k + 1, hk =>
    cfRound k (roundsUpTo w r k (by omega)) w[k] (derivedWord w k (by omega))

/-- The final round registers: always exactly 64 rounds (R99, R102). -/
def finalRegs (v : ChainState) (blk : Block) : Regs :=
  roundsUpTo (schedule blk) (startRegs v) 64 (by omega)

/-- `compress(V, blk)`: the state XOR the final round registers (R101, R102). -/
def compress (v : ChainState) (blk : Block) : ChainState :=
  let r := regWords (finalRegs v blk)
  Vector.ofFn fun i : Fin 8 => v[i.val] ^^^ r[i.val]

/-- `absorb_blocks`: the left fold of `compress` (R104). -/
def absorbBlocks (v : ChainState) (bs : List Block) : ChainState := bs.foldl compress v

end Sys2Proof.Machine
end

