-- ==== Sys2Proof/Machine/Padding.lean ====
section
/-! DEFINITION. The padding rule of 41_padding.md as pure functions (R76 to R81). -/

namespace Sys2Proof.Machine

/-- `padlen(L)`: the marker byte and the zero bytes, without the 8 length bytes (R76, C1). -/
def padlen (len : Nat) : Nat := if len % 64 < 56 then 56 - len % 64 else 120 - len % 64

/-- `nzero(L) = padlen(L) - 1`: the zero bytes between marker and length field (R77). -/
def nzero (len : Nat) : Nat := padlen len - 1

/-- `pad(m, L) = m ‖ 0x80 ‖ 0x00^(padlen(L)-1) ‖ BE64((8*L) mod 2^64)` (R78). -/
def pad (m : List Byte) (len : Nat) : List Byte :=
  m ++ [0x80#8] ++ List.replicate (nzero len) 0#8 ++ toBE64 (BitVec.ofNat 64 (8 * len))

/-- The first `q` consecutive 64-byte pieces of a byte string. -/
def blocksUpTo : Nat → List Byte → List Block
  | 0, _ => []
  | q + 1, s =>
    if h : 64 ≤ s.length then
      ⟨(s.take 64).toArray, by simp [h]⟩ :: blocksUpTo q (s.drop 64)
    else []

/-- `blocks(s)`: the consecutive 64-byte pieces of `s` in order, `len(s) / 64` of them (R80). The rule
defines it where the length is a multiple of 64; elsewhere the model drops the leftover bytes at the end
(DESIGN CHOICE, safe, log 22). -/
def blocks (s : List Byte) : List Block := blocksUpTo (s.length / 64) s

/-- `tailblocks(t, L) = blocks(pad(t, L))` (R81). The rule defines it for a tail of `L mod 64` bytes; for
any other it is what the model's `blocks` makes of the padded string (DESIGN CHOICE, safe, log 22). -/
def tailblocks (t : List Byte) (len : Nat) : List Block := blocks (pad t len)

end Sys2Proof.Machine
end

