-- ==== Sys2Proof/Machine/Hash.lean ====
section
/-! DEFINITION. The hash engine's constants and pure functions: the initialization vector, the
serializer and its inverse, and the two whole-message functions the command sequences HASH and FORGE
are to compute (43_hash_engine.md, 44_state_load.md). -/

namespace Sys2Proof.Machine

/-- The initialization vector (R111). -/
def iv : ChainState :=
  #v[0x7380166F#32, 0x4914B2B9#32, 0x172442D7#32, 0xDA8A0600#32,
     0xA96F30BC#32, 0x163138AA#32, 0xE38DEE4D#32, 0xB0FB0E4E#32]

/-- `serialize(V)`: byte `4i + k` is bits `31-8k : 24-8k` of `V[i]` (R115). -/
def serialize (v : ChainState) : Digest :=
  Vector.ofFn fun p : Fin 32 => (v[p.val / 4]).extractLsb' (24 - 8 * (p.val % 4)) 8

/-- `parse(d)`: `V[i] = be32(d[4i .. 4i+4))` (R126). -/
def parse (d : Digest) : ChainState :=
  Vector.ofFn fun i : Fin 8 =>
    ofBE32 d[4 * i.val] d[4 * i.val + 1] d[4 * i.val + 2] d[4 * i.val + 3]

/-- `sm3(m)` (R113). The rule defines it up to `MAXLEN` bytes; beyond, the model takes the same formula,
whose length field is then modulo `2^64` as R78 says (DESIGN CHOICE, safe, log 23). -/
def sm3 (m : List Byte) : Digest := serialize (absorbBlocks iv (blocks (pad m m.length)))

/-- `prefixlen(L) = L + padlen(L) + 8`: the length of `pad(x, L)` for an `x` of `L` bytes (R127). -/
def prefixlen (len : Nat) : Nat := len + padlen len + 8

/-- `forge(d, L, s)` (R129). -/
def forge (d : Digest) (len : Nat) (s : List Byte) : Digest :=
  serialize (absorbBlocks (parse d) (blocks (pad s (prefixlen len + s.length))))

end Sys2Proof.Machine
end

