-- ==== Sys2Proof/Machine/Ops.lean ====
section
/-! DEFINITION. The named operations every meaning is written with: the ports, reset, fault entry and
the order of the checks, opening a computation, absorbing bytes and blocks, closing it. There is no
addressable memory (R31). -/

namespace Sys2Proof.Machine

/-- `MAXLEN = 2^61 - 1`, the largest byte length (R19, R71, R140). -/
def maxLen : Nat := 2305843009213693951

/-! What the host may do (R44). -/

/-- The host delivers a whole frame (R32). -/
def State.sendFrame (s : State) (f : Frame) : State := { s with cmdPort := s.cmdPort ++ [f] }

/-- The host reads the oldest response, if there is one (R33). -/
def State.readResponse (s : State) : Option (List Byte × State) :=
  match s.respPort with
  | [] => none
  | r :: rest => some (r, { s with respPort := rest })

/-- The host asserts the reset input (R156). -/
def State.assertReset (s : State) : State := { s with rst := true }

/-! What the sequencer does around a command. -/

/-- Reset (R156): `PHASE`, `ERR`, `ERRC`, `LEN` take the values of R25, `V` takes a fresh free value,
no byte of `BLK` has a specified value, and every frame delivered before is discarded. Responses
already on the response port stay there for the host (log 6). -/
def State.applyReset (s : State) : State where
  v := Config.resetV (s.resets + 1)
  tail := []
  len := 0#64
  phase := .idle
  err := false
  errc := 0#4
  cmdPort := []
  respPort := s.respPort
  rst := false
  resets := s.resets + 1

/-- Take the oldest frame off the command port (R32, R40). -/
def State.takeFrame (s : State) : Option (Frame × State) :=
  match s.cmdPort with
  | [] => none
  | f :: rest => some (f, { s with cmdPort := rest })

/-- `respond(r)`: place a response on the response port (R12, R33). -/
def State.respond (s : State) (r : List Byte) : State := { s with respPort := s.respPort ++ [r] }

/-! Faults. -/

/-- `raise <Fault>`: "exactly this: `ERR <- 1`; `ERRC <- code of the fault`; nothing else" (R141).
There is no return from a fault: only reset clears it (R145). -/
def State.raise (s : State) (c : Cause) : State := { s with err := true, errc := c.code }

/-- The first condition of an ordered list of checks that holds (R139). -/
def firstFault : List (Bool × Cause) → Option Cause
  | [] => none
  | (holds, c) :: rest => if holds then some c else firstFault rest

/-- A command with its checks (R139, R141, R142): blocked with no effect while `ERR = 1`; else the
first check that holds raises its fault and nothing else; else `done`, the command's whole effect. -/
def State.guarded (s : State) (checks : List (Bool × Cause)) (done : State) : State :=
  if s.err then s
  else
    match firstFault checks with
    | some c => s.raise c
    | none => done

/-- The phase check of PUSH, FINAL and CBLK: only ACTIVE accepts them (R138). -/
def State.notActive (s : State) : Bool × Cause := (decide (s.phase ≠ .active), .badPhase)

/-- A frame that decodes to `Illegal` (R137), blocked like a command while `ERR = 1` (R142). -/
def State.illegalFrame (s : State) : State := s.guarded [(true, .illegalCmd)] s

/-! Effects. -/

/-- Open a computation (INIT and LDST): `V` and `LEN` are loaded, the tail is emptied, the phase is
ACTIVE (R112, R128). -/
def State.openWith (s : State) (v : ChainState) (len : BitVec 64) : State :=
  { s with v := v, tail := [], len := len, phase := .active }

/-- Replace the chaining value by one compression (R102). -/
def State.compressBlock (s : State) (blk : Block) : State := { s with v := compress s.v blk }

/-- `absorb(b)` (R83): append the byte to the tail and count it; when the buffer then holds a whole
Block, compress it and leave the tail empty. Whether it is whole is read off the buffer itself, which
by R20 is the same as `LEN mod 64 = 63` before the byte (log 3). -/
def State.absorb (s : State) (b : Byte) : State :=
  if h : (s.tail ++ [b]).length = 64 then
    { s with v := compress s.v (blockOperand (s.tail ++ [b]) h), tail := [], len := s.len + 1#64 }
  else { s with tail := s.tail ++ [b], len := s.len + 1#64 }

/-- PUSH's loop: absorb every byte in order (R84). -/
def State.absorbAll (s : State) (m : List Byte) : State := m.foldl State.absorb s

/-- FINAL's effect: compress the blocks of `tailblocks(t, LEN)` in order and close the computation
(R86). `BLK` then has no specified content, so no byte of it is kept (R18, log 2). -/
def State.finish (s : State) : State :=
  { s with v := absorbBlocks s.v (tailblocks s.tail s.len.toNat), tail := [], phase := .fin }

end Sys2Proof.Machine
end

