-- ==== Sys2Proof/Machine/CompressUnit.lean ====
section
/-! DEFINITION. The command of the compression unit CF: CBLK (42_compression.md). -/

namespace Sys2Proof.Machine

/-- CBLK (R103): one compression of a host-supplied block; the block is not counted in `LEN`. -/
def execCblk (blk : Block) (s : State) : Host.Outcome State Fault Refusal :=
  .next (s.guarded
    [s.notActive, (decide (s.len.toNat % 64 ≠ 0), .blockMisaligned)]
    (s.compressBlock blk))

end Sys2Proof.Machine
end

