-- ==== Sys2Proof/Machine/PaddingUnit.lean ====
section
/-! DEFINITION. The commands of the padding engine PAD: PUSH and FINAL (41_padding.md). -/

namespace Sys2Proof.Machine

/-- PUSH (R84): the length check is made on mathematical integers before any byte is absorbed. -/
def execPush (m : List Byte) (s : State) : Host.Outcome State Fault Refusal :=
  .next (s.guarded
    [s.notActive, (decide (maxLen < s.len.toNat + m.length), .lenOverflow)]
    (s.absorbAll m))

/-- FINAL (R86): `LEN` is not changed. -/
def execFinal (s : State) : Host.Outcome State Fault Refusal :=
  .next (s.guarded [s.notActive] s.finish)

end Sys2Proof.Machine
end

