-- ==== Sys2Proof/Machine/Sequencer.lean ====
section
/-! DEFINITION. The commands of the sequencer: INIT and the two status reads (43_hash_engine.md). -/

namespace Sys2Proof.Machine

/-- INIT (R112): accepted in every phase; does not clear `ERR`. -/
def execInit (s : State) : Host.Outcome State Fault Refusal :=
  .next (s.guarded [] (s.openWith iv 0#64))

/-- RDSR (R119): answers in every phase and while `ERR = 1`. -/
def execRdsr (s : State) : Host.Outcome State Fault Refusal :=
  .next (s.respond (toBE32 s.status))

/-- RDLN (R120): answers in every phase and while `ERR = 1`. -/
def execRdln (s : State) : Host.Outcome State Fault Refusal :=
  .next (s.respond (toBE64 s.len))

end Sys2Proof.Machine
end

