-- ==== Sys2Proof/Machine/Serializer.lean ====
section
/-! DEFINITION. The commands of the serializer unit SER: RDDG and its inverse LDST. -/

namespace Sys2Proof.Machine

/-- LDST (R128): `BAD_OPERAND` before `LEN_OVERFLOW` (R139); accepted in every phase. -/
def execLdst (d : Digest) (l0 : BitVec 64) (s : State) : Host.Outcome State Fault Refusal :=
  .next (s.guarded
    [(decide (l0.toNat % 64 ≠ 0), .badOperand), (decide (maxLen < l0.toNat), .lenOverflow)]
    (s.openWith (parse d) l0))

/-- RDDG (R116): in IDLE `V` holds no value and the command faults. -/
def execRddg (s : State) : Host.Outcome State Fault Refusal :=
  .next (s.guarded [(decide (s.phase = .idle), .badPhase)] (s.respond (serialize s.v).toList))

end Sys2Proof.Machine
end

