-- ==== Sys2Proof/Machine/Dispatch.lean ====
section
/-! DEFINITION. The one dispatch from a command to its meaning. -/

namespace Sys2Proof.Machine

def exec (i : Instr) (s : State) : Host.Outcome State Fault Refusal :=
  match i with
  | .init => Sys2Proof.Machine.execInit s
  | .ldst d l0 => Sys2Proof.Machine.execLdst d l0 s
  | .push m => Sys2Proof.Machine.execPush m s
  | .final => Sys2Proof.Machine.execFinal s
  | .rddg => Sys2Proof.Machine.execRddg s
  | .cblk blk => Sys2Proof.Machine.execCblk blk s
  | .rdsr => Sys2Proof.Machine.execRdsr s
  | .rdln => Sys2Proof.Machine.execRdln s

end Sys2Proof.Machine
end

