-- ==== Sys2Proof/Machine/Step.lean ====
section
/-! DEFINITION. One transition of the block: a pending reset, or one whole command (R39, R156). -/

namespace Sys2Proof.Machine

/-- One step. A pending reset goes first (R156). With no frame on the command port the block waits,
and "waiting keeps all state" (R150, log 4). Otherwise it takes the oldest frame and performs its
command, or records `ILLEGAL_CMD` (R137). -/
def step (s : State) : Host.Outcome State Fault Refusal :=
  if s.rst then .next s.applyReset
  else
    match s.takeFrame with
    | none => .next s
    | some (f, s') =>
      match decode f with
      | .command i => exec i s'
      | .illegal _ => .next s'.illegalFrame

/-- `s` with the instruction whose bits are `w` as the next frame, so that the next step runs it; a
pending reset, which would discard it, is taken away (log 7). -/
def State.withFetchWord (s : State) (nbits w : Nat) : State :=
  { s with cmdPort := frameOfTableWord nbits w :: s.cmdPort, rst := false }

end Sys2Proof.Machine
end

