-- ==== Sys2Proof/Machine/System.lean ====
section
/-! DEFINITION. Several block instances (R152): the product of independent copies of the one-instance
model. `n` is the parameter `N_INSTANCES` (log 13). -/

namespace Sys2Proof.Machine

/-- A system of `n` instances. -/
abbrev System (n : Nat) := Vector State n

/-- Instance `k` takes a step; every other instance stays as it is. -/
def stepInstance {n : Nat} (k : Fin n) (sys : System n) : Host.Outcome (System n) Fault Refusal :=
  match step sys[k.val] with
  | .next t => .next (sys.set k.val t)
  | .fault r => .fault r
  | .refused r => .refused r

end Sys2Proof.Machine
end

