-- ==== Sys2Proof/Machine/Sequences.lean ====
section
/-! DEFINITION. The pseudo-instructions of R57: fixed sequences of commands that a host sends. -/

namespace Sys2Proof.Machine

/-- PUSHALL with at most `fuel` full pieces of `2^24 - 1` bytes before the last PUSH. -/
def pushAllUpTo : Nat → List Byte → List Instr
  | 0, m => [.push m]
  | fuel + 1, m =>
    if m.length ≤ maxPush then [.push m]
    else .push (m.take maxPush) :: pushAllUpTo fuel (m.drop maxPush)

/-- `PUSHALL m` (R57): one PUSH if `m` fits, else a PUSH of the first `2^24 - 1` bytes and PUSHALL of
the rest. Of the two forms the rule allows for the empty string, this is the PUSH with `n = 0`
(DESIGN CHOICE, safe, log 20). -/
def pushAll (m : List Byte) : List Instr := pushAllUpTo (m.length / maxPush) m

/-- `HASH m`: `INIT; PUSHALL m; FINAL; RDDG` (R57, R121). -/
def hashSequence (m : List Byte) : List Instr := .init :: pushAll m ++ [.final, .rddg]

/-- `FORGE d, L, s`: `LDST d, L + padlen(L) + 8; PUSHALL s; FINAL; RDDG` (R57, R130). Where
`L + padlen(L) + 8` is `2^64` or more, LDST's 64-bit operand cannot carry it and the spec gives no
expansion; the model wraps the operand modulo `2^64` (DESIGN CHOICE, unsafe, log 19). -/
def forgeSequence (d : Digest) (len : Nat) (s : List Byte) : List Instr :=
  .ldst d (BitVec.ofNat 64 (prefixlen len)) :: pushAll s ++ [.final, .rddg]

end Sys2Proof.Machine
end

