-- ==== Sys2Proof/Machine/Session.lean ====
section
/-! DEFINITION. A run as the host sees it (R44, R160): frames delivered after a reset, steps of the
block and responses read, in any interleaving. No reset is asserted within a run. -/

namespace Sys2Proof.Machine

/-- What can happen next in a run. -/
inductive Event where
  /-- The host delivers a frame (R32). -/
  | deliver (f : Frame)
  /-- The host reads the oldest response; with none to read, nothing happens. -/
  | read
  /-- The block takes a step. -/
  | step
  deriving DecidableEq, Repr

/-- A run so far: the block, and what R160 asks of the run's past. -/
structure Session where
  block : State
  /-- The responses the host has read, the first one read first. -/
  got : List (List Byte)
  /-- For every RDDG of the run taken in phase FIN with `ERR = 0`: the place its response has, or will
  have, in `got`. -/
  digestAt : List Nat
  deriving DecidableEq, Repr

/-- A run begins on a block right after a reset (R160). -/
def AfterReset (s : State) : Prop := s = State.reset ∨ ∃ p : State, s = p.applyReset

/-- Nothing has happened yet. -/
def Session.start (s : State) : Session := { block := s, got := [], digestAt := [] }

/-- The next step takes an RDDG "issued in phase FIN with `ERR = 0`" (R160). -/
def State.issuesDigest (s : State) : Bool :=
  !s.rst && decide (s.phase = .fin) && !s.err &&
    match s.takeFrame with
    | none => false
    | some (f, _) => decide (decode f = .command .rddg)

/-- The block takes a step. Responses leave in order (R33), so the response of an RDDG stands behind
those the host has read and those still on the response port. -/
def Session.stepBlock (u : Session) : Host.Outcome Session Fault Refusal :=
  match step u.block with
  | .next t => .next { u with
      block := t
      digestAt :=
        if u.block.issuesDigest then u.digestAt ++ [u.got.length + u.block.respPort.length]
        else u.digestAt }
  | .fault r => .fault r
  | .refused r => .refused r

/-- The host reads a response (R33, R44). -/
def Session.readOne (u : Session) : Session :=
  match u.block.readResponse with
  | none => u
  | some (r, s) => { u with block := s, got := u.got ++ [r] }

/-- One event of a run. -/
def Session.next (u : Session) : Event → Host.Outcome Session Fault Refusal
  | .deliver f => .next { u with block := u.block.sendFrame f }
  | .read => .next u.readOne
  | .step => u.stepBlock

/-- The events of a run, in order. -/
def Session.play : List Event → Session → Host.Outcome Session Fault Refusal
  | [], u => .next u
  | e :: es, u =>
    match u.next e with
    | .next w => Session.play es w
    | .fault r => .fault r
    | .refused r => .refused r

/-- The run's finite sequence of frames (R160). -/
def framesOf (es : List Event) : List Frame :=
  es.filterMap fun
    | .deliver f => some f
    | .read => none
    | .step => none

end Sys2Proof.Machine
end

