-- ==== Sys2Proof/Safety.lean ====
section
/-! DEFINITION. What claims count as a sound state, a run, its end and the delivery of a digest. -/

namespace Sys2Proof

open Sys2Proof.Machine

/-- R20 and R18: in ACTIVE the buffer holds `LEN mod 64` bytes; otherwise no byte of it has a
specified value. -/
abbrev tailInv (s : State) : Prop :=
  s.tail.length = if s.phase = .active then s.len.toNat % 64 else 0

/-- R19: `0 <= LEN <= MAXLEN`. -/
abbrev lenInv (s : State) : Prop := s.len.toNat ≤ maxLen

/-- R21 and R136: `ERRC` is 0 exactly when `ERR` is 0, and codes 6 to 15 are never written. -/
abbrev errInv (s : State) : Prop := (s.err = false ↔ s.errc = 0#4) ∧ s.errc.toNat ≤ 5

/-- The invariant of the machine: it holds at reset and every step keeps it. -/
abbrev Inv (s : State) : Prop := tailInv s ∧ lenInv s ∧ errInv s

/-- One way a run can go (R160): the frames `fs` all delivered, on an empty command port, before the
block takes the first, and taken one by one. `Session.play` has every other interleaving. -/
def runFrames (s : State) (fs : List Frame) : Host.Outcome State Fault Refusal :=
  Host.Core.run core fs.length { s with cmdPort := fs }

/-- A run of commands, each sent as its frame (R55, R57). -/
def runCommands (s : State) (is : List Instr) : Host.Outcome State Fault Refusal :=
  runFrames s (is.map encode)

/-- A run has ended when the block has taken every frame delivered (R160). Its responses are then
produced too, since a command's response is part of its one transition (R39). -/
abbrev Ended (s : State) : Prop := s.cmdPort = []

/-- `u` is a run of the frames `fs`, delivered after a reset (R160). -/
def IsRun (fs : List Frame) (u : Session) : Prop :=
  ∃ (s : State) (es : List Event),
    AfterReset s ∧ framesOf es = fs ∧ Session.play es (Session.start s) = .next u

/-- The run has delivered the digest `d` (R160): it contains an RDDG, issued in phase FIN with
`ERR = 0`, and the host has read the 32 bytes of its response, which are `d`. -/
def DeliversDigest (u : Session) (d : Digest) : Prop :=
  ∃ k ∈ u.digestAt, u.got[k]? = some d.toList

end Sys2Proof
end

