-- ==== Sys2Proof/Certificates/Slice0/Obligations.lean ====
section
/-! DEFINITION. The statements about the SM3 core, from the numbered rules of spec/. A statement whose
rule the spec itself marks as derived, or as taken from general knowledge, names the spec's section
instead of the rule. -/

namespace Sys2Proof.Claims

open Sys2Proof Sys2Proof.Machine

/-- The phase table of R138: which command is accepted in which phase. -/
def acceptedIn : Instr → Phase → Bool
  | .init, _ => true
  | .ldst _ _, _ => true
  | .push _, p => decide (p = .active)
  | .final, p => decide (p = .active)
  | .rddg, p => decide (p ≠ .idle)
  | .cblk _, p => decide (p = .active)
  | .rdsr, _ => true
  | .rdln, _ => true

/-- A frame is malformed as R52 says: shorter than 4 bytes, or not `4 + need(word)` bytes long. -/
def badLength (f : Frame) : Prop :=
  f.length < 4 ∨
    ∃ b0 b1 b2 b3 p k, f = b0 :: b1 :: b2 :: b3 :: p ∧ need (ofBE32 b0 b1 b2 b3) = some k ∧
      p.length ≠ k

/-- A frame's command word is illegal as R51 says: (a) an opcode outside 0x01..0x08, or (b) `n ≠ 0`
with an opcode other than 0x03. -/
def badWord (f : Frame) : Prop :=
  ∃ b0 b1 b2 b3 p, f = b0 :: b1 :: b2 :: b3 :: p ∧
    ((b0.toNat = 0 ∨ 9 ≤ b0.toNat) ∨
      (b0.toNat ≠ 3 ∧ b1.toNat * 65536 + b2.toNat * 256 + b3.toNat ≠ 0))

/-- The 64 bytes `61626380 ‖ 00^52 ‖ 0000000000000018` of R102's worked example. -/
def abcBlock : Block :=
  ⟨([0x61#8, 0x62#8, 0x63#8, 0x80#8] ++ List.replicate 59 0#8 ++ [0x18#8]).toArray, by simp⟩

/-- Steps of a system in the order the list names the instances. -/
def runInterleaved {n : Nat} : List (Fin n) → System n → Host.Outcome (System n) Fault Refusal
  | [], sys => .next sys
  | k :: rest, sys =>
    match stepInstance k sys with
    | .next t => runInterleaved rest t
    | .fault r => .fault r
    | .refused r => .refused r

end Sys2Proof.Claims

open Sys2Proof Sys2Proof.Machine Sys2Proof.Claims

/-! Encoding. -/

/-- 30_encoding.md section 6 ("`decode(encode(c)) = c` for every command `c`", which the spec marks as
derived from the decoder). -/
def Obligations.DecodeOfEncode : Prop :=
  ∀ i : Instr, i.wellFormed = true → decode (encode i) = .command i

/-- 30_encoding.md section 6 ("`encode(decode(f)) = f` for every frame `f` that does not decode to
`Illegal`", marked as derived). What decodes is also a command its encoding can carry. -/
def Obligations.EncodeOfDecode : Prop :=
  ∀ (f : Frame) (i : Instr), decode f = .command i → encode i = f ∧ i.wellFormed = true

/-- R52. "raises `ILLEGAL_CMD`" is the fault entry of R141 with code 1, and nothing else changes but
that the frame was taken. -/
def Obligations.WrongFrameLengthIsIllegal : Prop :=
  ∀ (s : State) (f : Frame) (rest : List Frame),
    s.rst = false → s.err = false → s.cmdPort = f :: rest → badLength f →
      step s = .next { s with cmdPort := rest, err := true, errc := 1#4 }

/-- R51. -/
def Obligations.IllegalWordsRaise : Prop :=
  ∀ (s : State) (f : Frame) (rest : List Frame),
    s.rst = false → s.err = false → s.cmdPort = f :: rest → badWord f →
      step s = .next { s with cmdPort := rest, err := true, errc := 1#4 }

/-- Frames of 95_test_vectors.md section 6.1, its LDST frame in full and CBLK with the block of section
4.1, written out from the encoding tables. -/
def Obligations.PublishedFramesDecode : Prop :=
  decode [0x01#8, 0#8, 0#8, 0#8] = .command .init ∧
  decode [0x03#8, 0#8, 0#8, 0#8] = .command (.push []) ∧
  decode [0x03#8, 0#8, 0#8, 3#8, 0x61#8, 0x62#8, 0x63#8] =
    .command (.push [0x61#8, 0x62#8, 0x63#8]) ∧
  decode [0x04#8, 0#8, 0#8, 0#8] = .command .final ∧
  decode [0x05#8, 0#8, 0#8, 0#8] = .command .rddg ∧
  decode [0x07#8, 0#8, 0#8, 0#8] = .command .rdsr ∧
  decode [0x08#8, 0#8, 0#8, 0#8] = .command .rdln ∧
  decode ([0x06#8, 0#8, 0#8, 0#8] ++ abcBlock.toList) = .command (.cblk abcBlock) ∧
  decode
    ([0x02#8, 0x00#8, 0x00#8, 0x00#8, 0x66#8, 0xc7#8, 0xf0#8, 0xf4#8, 0x62#8, 0xee#8, 0xed#8] ++
     [0xd9#8, 0xd1#8, 0xf2#8, 0xd4#8, 0x6b#8, 0xdc#8, 0x10#8, 0xe4#8, 0xe2#8, 0x41#8, 0x67#8] ++
     [0xc4#8, 0x87#8, 0x5c#8, 0xf2#8, 0xf7#8, 0xa2#8, 0x29#8, 0x7d#8, 0xa0#8, 0x2b#8, 0x8f#8] ++
     [0x4b#8, 0xa8#8, 0xe0#8, 0x00#8, 0x00#8, 0x00#8, 0x00#8, 0x00#8, 0x00#8, 0x00#8, 0x40#8]) =
    .command (.ldst
      #v[0x66#8, 0xc7#8, 0xf0#8, 0xf4#8, 0x62#8, 0xee#8, 0xed#8, 0xd9#8,
         0xd1#8, 0xf2#8, 0xd4#8, 0x6b#8, 0xdc#8, 0x10#8, 0xe4#8, 0xe2#8,
         0x41#8, 0x67#8, 0xc4#8, 0x87#8, 0x5c#8, 0xf2#8, 0xf7#8, 0xa2#8,
         0x29#8, 0x7d#8, 0xa0#8, 0x2b#8, 0x8f#8, 0x4b#8, 0xa8#8, 0xe0#8] 64#64)

/-! The step. -/

/-- 20_memory.md sections 1, 4 and 5: the block takes the oldest frame and performs its command, one
transition per command. All the step adds around `exec` is that the frame is off the port. -/
def Obligations.StepRunsDecodedCommand : Prop :=
  ∀ (s : State) (f : Frame) (rest : List Frame) (i : Instr),
    s.rst = false → s.cmdPort = f :: rest → decode f = .command i →
      step s = exec i { s with cmdPort := rest }

/-- 60_exceptions.md section 7: "it is either executing a command or waiting for a frame, and waiting
keeps all state". That a waiting step is a transition at all is the model's choice (log 4). -/
def Obligations.WaitingKeepsState : Prop :=
  ∀ s : State, s.rst = false → s.cmdPort = [] → step s = .next s

/-- 70_reset_and_hazards.md section 4: "every command ends", with a command or an illegal frame to take
and with a reset pending; that a fault is no stop is how the model reads R141 and R142 (DEDUCED, log 8).
That a step exists with no frame to take is the model's choice (DESIGN CHOICE, log 4). -/
def Obligations.StepNeverStops : Prop :=
  ∀ s : State, ∃ t, step s = .next t

/-- R33. -/
def Obligations.ResponsesHaveFixedLength : Prop :=
  ∀ (i : Instr) (s t : State), exec i s = .next t →
    (t.respPort = s.respPort ∨
      ∃ r, t.respPort = s.respPort ++ [r] ∧
        ((i = .rddg ∧ r.length = 32) ∨ (i = .rdsr ∧ r.length = 4) ∨ (i = .rdln ∧ r.length = 8))) ∧
    (s.err = false → t.err = true → t.respPort = s.respPort) ∧
    (s.err = true → i ≠ .rdsr → i ≠ .rdln → t.respPort = s.respPort)

/-! Reset. -/

/-- R25: what reset leaves, and the STATUS word that follows from it. `V` and `BLK` are unreadable:
whatever they hold, every command answers with what the other fields give, and the commands that would
read them fault. -/
def Obligations.ResetValues : Prop :=
  State.reset.phase = .idle ∧ State.reset.err = false ∧ State.reset.errc = 0#4 ∧
    State.reset.len = 0#64 ∧ State.reset.status = 0#32 ∧
    ∀ (v : ChainState) (tl : List Byte) (i : Instr),
      (i = .rddg ∨ i = .final ∨ (∃ m, i = .push m) ∨ (∃ b, i = .cblk b) →
        exec i { State.reset with v := v, tail := tl } =
          .next { State.reset with v := v, tail := tl, err := true, errc := 2#4 }) ∧
      (i = .init ∨ (∃ d l0, i = .ldst d l0 ∧ l0.toNat % 64 = 0 ∧ l0.toNat ≤ 2 ^ 61 - 1) →
        exec i { State.reset with v := v, tail := tl } = exec i State.reset)

/-- R156: reset at any time leaves the values of R25, discards every frame delivered before it, and
adds no response; without it no step clears `ERR`, and no command performs a reset. -/
def Obligations.ResetFromAnyState : Prop :=
  (∀ s : State, s.rst = true → ∃ t, step s = .next t ∧
    t.phase = .idle ∧ t.err = false ∧ t.errc = 0#4 ∧ t.len = 0#64 ∧ t.cmdPort = [] ∧
    ∀ r ∈ t.respPort, r ∈ s.respPort) ∧
  (∀ s t : State, s.rst = false → step s = .next t →
    t.resets = s.resets ∧ (s.err = true → t.err = true))

/-- 70_reset_and_hazards.md section 1: "After reset ... the phase is IDLE, so `RDDG`, `PUSH`, `CBLK`
and `FINAL` fault until INIT or LDST has run". No other command opens a computation: a step from
phase IDLE leaves it in IDLE unless the frame taken is INIT or LDST. -/
def Obligations.ResetIsNotInit : Prop :=
  (∀ (s : State) (i : Instr), s.phase = .idle → s.err = false →
    (i = .rddg ∨ i = .final ∨ (∃ m, i = .push m) ∨ (∃ b, i = .cblk b)) →
      exec i s = .next { s with err := true, errc := 2#4 }) ∧
  (∀ (s t : State) (i : Instr), s.phase = .idle → exec i s = .next t →
    i ≠ .init → (∀ d l, i ≠ .ldst d l) → t.phase = .idle)

/-! Results of the commands. -/

/-- R112 and R111, the encoding and every branch of the pseudocode: the eight words are the
initialization vector. -/
def Obligations.InitResult : Prop :=
  encode .init = [0x01#8, 0#8, 0#8, 0#8] ∧
  ∀ s : State,
    (s.err = true → exec .init s = .next s) ∧
    (s.err = false → exec .init s = .next { s with
      v := #v[0x7380166F#32, 0x4914B2B9#32, 0x172442D7#32, 0xDA8A0600#32,
              0xA96F30BC#32, 0x163138AA#32, 0xE38DEE4D#32, 0xB0FB0E4E#32],
      len := 0#64, tail := [], phase := .active })

/-- R128, the encoding and every branch of the pseudocode. -/
def Obligations.LdstResult : Prop :=
  ∀ (s : State) (d : Digest) (l0 : BitVec 64),
    encode (.ldst d l0) = [0x02#8, 0#8, 0#8, 0#8] ++ d.toList ++ toBE64 l0 ∧
    (s.err = true → exec (.ldst d l0) s = .next s) ∧
    (s.err = false → l0.toNat % 64 ≠ 0 →
      exec (.ldst d l0) s = .next { s with err := true, errc := 3#4 }) ∧
    (s.err = false → l0.toNat % 64 = 0 → 2 ^ 61 - 1 < l0.toNat →
      exec (.ldst d l0) s = .next { s with err := true, errc := 5#4 }) ∧
    (s.err = false → l0.toNat % 64 = 0 → l0.toNat ≤ 2 ^ 61 - 1 →
      exec (.ldst d l0) s = .next { s with
        v := Vector.ofFn fun i : Fin 8 =>
          ofBE32 d[4 * i.val] d[4 * i.val + 1] d[4 * i.val + 2] d[4 * i.val + 3],
        len := l0, tail := [], phase := .active })

/-- 44_state_load.md section 2, a corner case of LDST: "`LDST serialize(IV), 0` leaves exactly the
state INIT leaves". -/
def Obligations.LdstOfIvIsInit : Prop :=
  ∀ s : State, exec (.ldst (serialize iv) 0#64) s = exec .init s

/-- 10_state.md section 8: nothing of an earlier computation except `ERR` and `ERRC` survives INIT or
LDST, whatever `V`, the tail, `LEN` and the phase were. -/
def Obligations.OpeningForgetsTheEarlierComputation : Prop :=
  ∀ (s : State) (v : ChainState) (tl : List Byte) (len : BitVec 64) (p : Phase),
    s.err = false →
      exec .init s = exec .init { s with v := v, tail := tl, len := len, phase := p } ∧
      ∀ (d : Digest) (l0 : BitVec 64), l0.toNat % 64 = 0 → l0.toNat ≤ 2 ^ 61 - 1 →
        exec (.ldst d l0) s = exec (.ldst d l0) { s with v := v, tail := tl, len := len, phase := p }

/-- R84, the encoding and every branch of the pseudocode, its effect in the form "Equivalently, as one
function": the full blocks of tail and payload are compressed in order, the rest is the new tail. The
premise on the tail is R20, part of `Inv`. -/
def Obligations.PushResult : Prop :=
  ∀ (s : State) (m : List Byte),
    (m.length ≤ 2 ^ 24 - 1 → encode (.push m) = 0x03#8 :: BitVec.ofNat 8 (m.length / 65536) ::
      BitVec.ofNat 8 (m.length / 256) :: BitVec.ofNat 8 m.length :: m) ∧
    (s.err = true → exec (.push m) s = .next s) ∧
    (s.err = false → s.phase ≠ .active →
      exec (.push m) s = .next { s with err := true, errc := 2#4 }) ∧
    (s.err = false → s.phase = .active → 2 ^ 61 - 1 < s.len.toNat + m.length →
      exec (.push m) s = .next { s with err := true, errc := 5#4 }) ∧
    (s.err = false → s.phase = .active → s.len.toNat + m.length ≤ 2 ^ 61 - 1 →
      s.tail.length = s.len.toNat % 64 →
      exec (.push m) s = .next { s with
        v := absorbBlocks s.v
          (blocks ((s.tail ++ m).take (64 * ((s.tail ++ m).length / 64)))),
        tail := (s.tail ++ m).drop (64 * ((s.tail ++ m).length / 64)),
        len := s.len + BitVec.ofNat 64 m.length })

/-- R83: one byte. With `r = LEN mod 64` below 63 it joins the tail; with `r = 63` the 64 bytes of the
buffer are compressed and the tail is empty. -/
def Obligations.AbsorbOneByte : Prop :=
  ∀ (s : State) (b : Byte), s.err = false → s.phase = .active →
    s.tail.length = s.len.toNat % 64 → s.len.toNat < 2 ^ 61 - 1 →
      (s.len.toNat % 64 < 63 →
        exec (.push [b]) s = .next { s with tail := s.tail ++ [b], len := s.len + 1#64 }) ∧
      (s.len.toNat % 64 = 63 → ∀ blk : Block, blk.toList = s.tail ++ [b] →
        exec (.push [b]) s = .next { s with
          v := compress s.v blk, tail := [], len := s.len + 1#64 })

/-- 41_padding.md section 2, split invariance: two PUSHes leave the state that absorbing their
concatenation leaves, with the spec's premise that no overflow occurs. -/
def Obligations.PushSplitInvariance : Prop :=
  ∀ (s t : State) (m1 m2 : List Byte), s.err = false → s.phase = .active →
    s.len.toNat + m1.length + m2.length ≤ 2 ^ 61 - 1 → exec (.push m1) s = .next t →
      exec (.push m2) t = exec (.push (m1 ++ m2)) s ∧ t.err = false

/-- R86, the encoding and every branch of the pseudocode. `BLK` has no specified content after the
effect, so nothing is said of the tail there; everything else is. -/
def Obligations.FinalResult : Prop :=
  encode .final = [0x04#8, 0#8, 0#8, 0#8] ∧
  ∀ s : State,
    (s.err = true → exec .final s = .next s) ∧
    (s.err = false → s.phase ≠ .active →
      exec .final s = .next { s with err := true, errc := 2#4 }) ∧
    (s.err = false → s.phase = .active → ∃ t, exec .final s = .next t ∧
      t.v = absorbBlocks s.v (tailblocks s.tail s.len.toNat) ∧ t.phase = .fin ∧ t.len = s.len ∧
      t.err = s.err ∧ t.errc = s.errc ∧ t.cmdPort = s.cmdPort ∧ t.respPort = s.respPort ∧
      t.rst = s.rst ∧ t.resets = s.resets)

/-- R103, the encoding and every branch of the pseudocode. -/
def Obligations.CblkResult : Prop :=
  ∀ (s : State) (blk : Block),
    encode (.cblk blk) = [0x06#8, 0#8, 0#8, 0#8] ++ blk.toList ∧
    (s.err = true → exec (.cblk blk) s = .next s) ∧
    (s.err = false → s.phase ≠ .active →
      exec (.cblk blk) s = .next { s with err := true, errc := 2#4 }) ∧
    (s.err = false → s.phase = .active → s.len.toNat % 64 ≠ 0 →
      exec (.cblk blk) s = .next { s with err := true, errc := 4#4 }) ∧
    (s.err = false → s.phase = .active → s.len.toNat % 64 = 0 →
      exec (.cblk blk) s = .next { s with v := compress s.v blk })

/-- 42_compression.md section 5: "a counted block uses `PUSH` of 64 bytes, which leaves the same `V`
and adds 64 to `LEN`". -/
def Obligations.CblkIsPushWithoutCounting : Prop :=
  ∀ (s : State) (blk : Block), s.err = false → s.phase = .active → s.len.toNat % 64 = 0 →
    s.tail = [] → s.len.toNat + 64 ≤ 2 ^ 61 - 1 →
      ∃ t, exec (.cblk blk) s = .next t ∧
        exec (.push blk.toList) s = .next { t with len := s.len + 64#64 }

/-- R116, the encoding and every branch of the pseudocode. -/
def Obligations.RddgResult : Prop :=
  encode .rddg = [0x05#8, 0#8, 0#8, 0#8] ∧
  ∀ s : State,
    (s.err = true → exec .rddg s = .next s) ∧
    (s.err = false → s.phase = .idle →
      exec .rddg s = .next { s with err := true, errc := 2#4 }) ∧
    (s.err = false → s.phase ≠ .idle →
      exec .rddg s = .next { s with respPort := s.respPort ++ [(serialize s.v).toList] })

/-- R119: in every phase and while `ERR = 1`, the four bytes of STATUS, big-endian. -/
def Obligations.RdsrResult : Prop :=
  encode .rdsr = [0x07#8, 0#8, 0#8, 0#8] ∧
  ∀ s : State, ∃ w : Word,
    w.toNat = s.phase.code + 4 * s.err.toNat + 256 * s.errc.toNat + 65536 * (s.len.toNat % 64) ∧
    exec .rdsr s = .next { s with respPort := s.respPort ++
      [[w.extractLsb' 24 8, w.extractLsb' 16 8, w.extractLsb' 8 8, w.extractLsb' 0 8]] }

/-- R23: the formula of STATUS, every field at its bits, the reserved bits 0, and that the host writes no
field, neither by delivering a frame nor by reading a response. What a reset leaves is R156's matter. -/
def Obligations.StatusFields : Prop :=
  ∀ s : State,
    s.status.toNat =
      (match s.phase with | .idle => 0 | .active => 1 | .fin => 2) + 4 * s.err.toNat +
        256 * s.errc.toNat + 65536 * (s.len.toNat % 64) ∧
    (s.status.extractLsb' 0 2).toNat =
      (match s.phase with | .idle => 0 | .active => 1 | .fin => 2) ∧
    s.status.getLsbD 2 = s.err ∧
    s.status.extractLsb' 3 5 = 0#5 ∧
    s.status.extractLsb' 8 4 = s.errc ∧
    s.status.extractLsb' 12 4 = 0#4 ∧
    s.status.extractLsb' 16 6 = s.len.extractLsb' 0 6 ∧
    s.status.extractLsb' 22 10 = 0#10 ∧
    (∀ f, (s.sendFrame f).status = s.status) ∧
    (∀ r t, s.readResponse = some (r, t) → t.status = s.status)

/-- R120: in every phase and while `ERR = 1`, the eight bytes of LEN, big-endian. -/
def Obligations.RdlnResult : Prop :=
  encode .rdln = [0x08#8, 0#8, 0#8, 0#8] ∧
  ∀ s : State, exec .rdln s = .next { s with respPort := s.respPort ++
    [(List.range 8).map fun i => BitVec.ofNat 8 (s.len.toNat / 2 ^ (8 * (7 - i)))] }

/-- 20_memory.md section 4: RDDG, RDSR and RDLN change nothing but the response port, and repeating one
returns the same bytes. -/
def Obligations.ReadsAreIdempotent : Prop :=
  ∀ (i : Instr) (s : State), s.err = false → s.phase ≠ .idle →
    (i = .rddg ∨ i = .rdsr ∨ i = .rdln) →
      ∃ r, exec i s = .next { s with respPort := s.respPort ++ [r] } ∧
        exec i { s with respPort := s.respPort ++ [r] } =
          .next { s with respPort := s.respPort ++ [r, r] }

/-! Faults. -/

/-- R139, R143, R144 and R140: the checks in their order, each with the code it reports. -/
def Obligations.FaultPriority : Prop :=
  ∀ (s : State) (f : Frame) (rest : List Frame), s.rst = false → s.cmdPort = f :: rest →
    (s.err = true → (∀ i, decode f = .command i → i ≠ .rdsr ∧ i ≠ .rdln) →
      step s = .next { s with cmdPort := rest }) ∧
    (s.err = false → (∀ i, decode f ≠ .command i) →
      step s = .next { s with cmdPort := rest, err := true, errc := 1#4 }) ∧
    (∀ i, s.err = false → decode f = .command i → acceptedIn i s.phase = false →
      step s = .next { s with cmdPort := rest, err := true, errc := 2#4 }) ∧
    (∀ d l0, s.err = false → decode f = .command (.ldst d l0) → l0.toNat % 64 ≠ 0 →
      step s = .next { s with cmdPort := rest, err := true, errc := 3#4 }) ∧
    (∀ b, s.err = false → decode f = .command (.cblk b) → s.phase = .active →
      s.len.toNat % 64 ≠ 0 →
      step s = .next { s with cmdPort := rest, err := true, errc := 4#4 }) ∧
    (∀ m, s.err = false → decode f = .command (.push m) → s.phase = .active →
      2 ^ 61 - 1 < s.len.toNat + m.length →
      step s = .next { s with cmdPort := rest, err := true, errc := 5#4 }) ∧
    (∀ d l0, s.err = false → decode f = .command (.ldst d l0) → l0.toNat % 64 = 0 →
      2 ^ 61 - 1 < l0.toNat →
      step s = .next { s with cmdPort := rest, err := true, errc := 5#4 })

/-- R138, both halves of the table: a command not accepted in the phase raises code 2, an accepted one
never does. -/
def Obligations.PhaseTable : Prop :=
  ∀ (i : Instr) (s : State), s.err = false →
    (acceptedIn i s.phase = false → exec i s = .next { s with err := true, errc := 2#4 }) ∧
    (acceptedIn i s.phase = true → ∀ t, exec i s = .next t → t.err = true → t.errc ≠ 2#4)

/-- R141: a command that raises a fault does exactly this, with a code of R136. -/
def Obligations.FaultsArePrecise : Prop :=
  ∀ (i : Instr) (s t : State), s.err = false → exec i s = .next t → t.err = true →
    ∃ c : BitVec 4, 1 ≤ c.toNat ∧ c.toNat ≤ 5 ∧ t = { s with err := true, errc := c }

/-- R142: every command but RDSR and RDLN, and every illegal frame, is ignored while `ERR = 1`; RDSR
and RDLN answer as usual. -/
def Obligations.BlockedWhileErr : Prop :=
  ∀ s : State, s.err = true →
    (∀ i, i ≠ .rdsr → i ≠ .rdln → exec i s = .next s) ∧
    (∀ f rest why, s.rst = false → s.cmdPort = f :: rest → decode f = .illegal why →
      step s = .next { s with cmdPort := rest }) ∧
    exec .rdsr s = .next { s with respPort := s.respPort ++ [toBE32 s.status] } ∧
    exec .rdln s = .next { s with respPort := s.respPort ++ [toBE64 s.len] }

/-- R145: reset clears `ERR` and `ERRC`; while the reset input is not asserted, no step clears `ERR` or
changes `ERRC`, nor any other state of the block. -/
def Obligations.OnlyResetClearsErr : Prop :=
  ∀ s t : State, step s = .next t →
    (s.rst = true → t.err = false ∧ t.errc = 0#4) ∧
    (s.rst = false → s.err = true → t.err = true ∧ t.errc = s.errc ∧ t.v = s.v ∧
      t.tail = s.tail ∧ t.len = s.len ∧ t.phase = s.phase)

/-- 60_exceptions.md section 3: "a faulted instance never delivers a result". Over any steps without a
reset, all it answers is status words (4 bytes) and lengths (8 bytes). 70_reset_and_hazards.md section
2: "A run that ends with `ERR = 1` has delivered nothing after the fault": whatever the host delivers
and reads, no RDDG issues a digest any more. -/
def Obligations.FaultedNeverDelivers : Prop :=
  (∀ (k : Nat) (s t : State), s.rst = false → s.err = true →
    Host.Core.run core k s = .next t →
      t.err = true ∧ ∃ rs, t.respPort = s.respPort ++ rs ∧ ∀ r ∈ rs, r.length = 4 ∨ r.length = 8) ∧
  (∀ (es : List Event) (u w : Session), u.block.rst = false → u.block.err = true →
    Session.play es u = .next w → w.block.err = true ∧ w.digestAt = u.digestAt)

/-! Who writes what. -/

/-- 10_state.md section 3: which commands write `V`, and with what: the initialization vector, a parsed
digest, or full applications of the compression function: one for CBLK, one per block that tail and
payload fill for PUSH, the one or two tail blocks for FINAL. A blocked or faulting command writes
nothing. -/
def Obligations.WritersOfV : Prop :=
  ∀ (i : Instr) (s t : State), Inv s → exec i s = .next t →
    (s.err = true ∨ t.err = true → t.v = s.v) ∧
    (t.err = false → t.v = match i with
      | .init => iv
      | .ldst d _ => parse d
      | .push m => absorbBlocks s.v
          (blocks ((s.tail ++ m).take (64 * ((s.tail ++ m).length / 64))))
      | .final => absorbBlocks s.v (tailblocks s.tail s.len.toNat)
      | .cblk b => compress s.v b
      | .rddg => s.v
      | .rdsr => s.v
      | .rdln => s.v) ∧
    (t.err = false → i = .final →
      (tailblocks s.tail s.len.toNat).length = if s.len.toNat % 64 < 56 then 1 else 2)

/-- R19: which commands write `LEN`, with what as a number, and that none takes it above `MAXLEN`: a
command that would faults and leaves it unchanged. -/
def Obligations.WritersOfLen : Prop :=
  ∀ (i : Instr) (s t : State), exec i s = .next t →
    (s.err = true ∨ t.err = true → t.len = s.len) ∧
    (t.err = false → t.len.toNat = match i with
      | .init => 0
      | .ldst _ l0 => l0.toNat
      | .push m => s.len.toNat + m.length
      | .final => s.len.toNat
      | .cblk _ => s.len.toNat
      | .rddg => s.len.toNat
      | .rdsr => s.len.toNat
      | .rdln => s.len.toNat) ∧
    (s.len.toNat ≤ 2 ^ 61 - 1 → t.len.toNat ≤ 2 ^ 61 - 1)

/-- R22: the codes of the phase, and its transitions over every step. -/
def Obligations.PhaseTransitions : Prop :=
  (Phase.idle.code = 0 ∧ Phase.active.code = 1 ∧ Phase.fin.code = 2) ∧
  (∀ s t : State, s.rst = true → step s = .next t → t.phase = .idle) ∧
  (∀ s t : State, s.err = false → exec .init s = .next t → t.phase = .active) ∧
  (∀ (s t : State) (d : Digest) (l0 : BitVec 64), exec (.ldst d l0) s = .next t → t.err = false →
    t.phase = .active) ∧
  (∀ s t : State, s.err = false → exec .final s = .next t →
    t.phase = if s.phase = .active then .fin else s.phase) ∧
  (∀ (s t : State) (i : Instr), exec i s = .next t → (s.err = true ∨ t.err = true) →
    t.phase = s.phase) ∧
  (∀ (s t : State) (i : Instr), exec i s = .next t → i ≠ .init → (∀ d l, i ≠ .ldst d l) →
    i ≠ .final → t.phase = s.phase)

/-- The invariant holds at reset: R19, R21 and R136's unwritten codes. R20 speaks of ACTIVE only: that
no byte of the buffer is kept in IDLE, the phase at reset, is the model's form of R18 (log 2). -/
def Obligations.InvAtReset : Prop := Inv State.reset

/-- Every step keeps the invariant: the buffer holds `LEN mod 64` bytes in ACTIVE, `LEN` stays within
`MAXLEN`, and `ERRC` is a code of R136, 0 exactly when `ERR` is 0. That no byte of the buffer is kept
outside ACTIVE is the model's form of R18 (log 2). -/
def Obligations.InvKeptByStep : Prop :=
  ∀ s t : State, Inv s → step s = .next t → Inv t

/-! Padding. -/

/-- R76. -/
def Obligations.PadLengthRule : Prop :=
  ∀ len : Nat, (len % 64 < 56 → padlen len = 56 - len % 64) ∧
    (56 ≤ len % 64 → padlen len = 120 - len % 64) ∧ 1 ≤ padlen len ∧ padlen len ≤ 64 ∧
    (len % 64 = 55 → padlen len = 1) ∧ (len % 64 = 56 → padlen len = 64)

/-- R78, byte by byte: `m`, the marker, the zeros, and the last eight bytes as the big-endian integer
`(8 * L) mod 2^64`. -/
def Obligations.PadShape : Prop :=
  ∀ (m : List Byte) (len : Nat),
    (pad m len).length = m.length + padlen len + 8 ∧
    (pad m len).take m.length = m ∧
    (pad m len)[m.length]? = some 0x80#8 ∧
    (∀ k, m.length < k → k < m.length + padlen len → (pad m len)[k]? = some 0#8) ∧
    ((pad m len).drop (m.length + padlen len)).foldl (fun acc b => acc * 256 + b.toNat) 0 =
      (8 * len) % 2 ^ 64

/-- 41_padding.md section 1, properties of `pad`: it is block-aligned when `len(m)` agrees with `L`
modulo 64, adds at least 9 and at most 72 bytes, and its last eight bytes are `8 * L` below 2^61. -/
def Obligations.PadAlignment : Prop :=
  ∀ (m : List Byte) (len : Nat),
    (m.length % 64 = len % 64 → (pad m len).length % 64 = 0) ∧
    9 ≤ (pad m len).length - m.length ∧ (pad m len).length - m.length ≤ 72 ∧
    (len < 2 ^ 61 → ((pad m len).drop (m.length + padlen len)).foldl
      (fun acc b => acc * 256 + b.toNat) 0 = 8 * len)

/-- 41_padding.md section 1, `blocks`: the consecutive 64-byte pieces, in order, `len(s) / 64` of them.
For a length that is no multiple of 64, where the spec defines no `blocks`, that the leftover bytes are
dropped is the model's choice (DESIGN CHOICE, log 22). -/
def Obligations.BlocksOfByteString : Prop :=
  ∀ s : List Byte, (blocks s).length = s.length / 64 ∧
    ∀ k i, k < s.length / 64 → i < 64 →
      ∃ b, (blocks s)[k]? = some b ∧ b[i]? = s[64 * k + i]?

/-- 41_padding.md section 1: `pad` is injective in `(m, L)` restricted to `L = len(m) < 2^61`. -/
def Obligations.PadInjective : Prop :=
  ∀ m m' : List Byte, m.length < 2 ^ 61 → m'.length < 2 ^ 61 →
    pad m m.length = pad m' m'.length → m = m'

/-- 41_padding.md section 1, the layout of the tail blocks byte by byte. -/
def Obligations.TailBlocksLayout : Prop :=
  ∀ (t : List Byte) (len : Nat), t.length = len % 64 →
    (len % 64 < 56 → ∃ p : Block, tailblocks t len = [p] ∧
      (∀ i, i < t.length → p[i]? = t[i]?) ∧ p[t.length]? = some 0x80#8 ∧
      (∀ i, t.length < i → i < 56 → p[i]? = some 0#8) ∧
      (∀ k, k < 8 → p[56 + k]? = (toBE64 (BitVec.ofNat 64 (8 * len)))[k]?)) ∧
    (56 ≤ len % 64 → ∃ p q : Block, tailblocks t len = [p, q] ∧
      (∀ i, i < t.length → p[i]? = t[i]?) ∧ p[t.length]? = some 0x80#8 ∧
      (∀ i, t.length < i → i < 64 → p[i]? = some 0#8) ∧
      (∀ i, i < 56 → q[i]? = some 0#8) ∧
      (∀ k, k < 8 → q[56 + k]? = (toBE64 (BitVec.ofNat 64 (8 * len)))[k]?))

/-- 41_padding.md section 1, decomposition: the blocks of a padded message are its own full blocks,
then those of its tail. -/
def Obligations.PadDecomposition : Prop :=
  ∀ (m : List Byte) (len : Nat), m.length % 64 = len % 64 →
    blocks (pad m len) = blocks (m.take (64 * (m.length / 64))) ++
      tailblocks (m.drop (64 * (m.length / 64))) len

/-- 41_padding.md section 3, the number of compressions for a whole message, and how many of them
FINAL makes. -/
def Obligations.CompressionCount : Prop :=
  ∀ m : List Byte,
    (blocks (pad m m.length)).length =
      (if m.length % 64 < 56 then m.length / 64 + 1 else m.length / 64 + 2) ∧
    (tailblocks (m.drop (64 * (m.length / 64))) m.length).length =
      (if m.length % 64 < 56 then 1 else 2)

/-! Words and compression. -/

/-- 40_word_arithmetic.md section 2. The formula is the spec's own, from general knowledge (G2): bit
`i` of `x` becomes bit `(i + n) mod 32` (log 11). -/
def Obligations.RotlFormula : Prop :=
  ∀ (x : Word) (n : Nat), n < 32 →
    (rotl x n).toNat = (x.toNat * 2 ^ n) % 2 ^ 32 + x.toNat / 2 ^ (32 - n) ∧
    ∀ i, i < 32 → (rotl x n).getLsbD ((i + n) % 32) = x.getLsbD i

/-- R67, bit by bit: XOR in rounds 0..15, majority in rounds 16..63. -/
def Obligations.ParityAndMajority : Prop :=
  ∀ (j : Nat) (x y z : Word) (i : Nat), i < 32 →
    (j < 16 → (FF j x y z).getLsbD i = ((x.getLsbD i ^^ y.getLsbD i) ^^ z.getLsbD i)) ∧
    (16 ≤ j → (FF j x y z).getLsbD i =
        decide (2 ≤ (x.getLsbD i).toNat + (y.getLsbD i).toNat + (z.getLsbD i).toNat))

/-- 40_word_arithmetic.md section 4, GG with the spec's own reading of `~x & z` (from general
knowledge, G3, log 11), bit by bit: XOR in rounds 0..15, choice in rounds 16..63. -/
def Obligations.ParityAndChoice : Prop :=
  ∀ (j : Nat) (x y z : Word) (i : Nat), i < 32 →
    (j < 16 → (GG j x y z).getLsbD i = ((x.getLsbD i ^^ y.getLsbD i) ^^ z.getLsbD i)) ∧
    (16 ≤ j → (GG j x y z).getLsbD i = if x.getLsbD i then y.getLsbD i else z.getLsbD i)

/-- 40_word_arithmetic.md section 7, laws (a), (b), (d) and (e). -/
def Obligations.WordLaws : Prop :=
  (∀ (x : Word) (a b : Nat), a < 32 → b < 32 → rotl (rotl x a) b = rotl x ((a + b) % 32)) ∧
  (∀ (x y : Word) (n : Nat), n < 32 → rotl (x ^^^ y) n = rotl x n ^^^ rotl y n) ∧
  (∀ x y : Word, P0 (x ^^^ y) = P0 x ^^^ P0 y ∧ P1 (x ^^^ y) = P1 x ^^^ P1 y) ∧
  (∀ (j : Nat) (x y z : Word), 16 ≤ j →
    FF j x y z = (x &&& y) ^^^ (x &&& z) ^^^ (y &&& z) ∧
    GG j x y z = (x &&& y) ^^^ (~~~x &&& z) ∧ GG j x y z = z ^^^ (x &&& (y ^^^ z)))

/-- 40_word_arithmetic.md section 7, law (c): `P0` and `P1` are bijections on words. -/
def Obligations.PermutationsAreBijections : Prop :=
  Function.Bijective P0 ∧ Function.Bijective P1

/-- 40_word_arithmetic.md section 5, and the table of the rotated constants in 95_test_vectors.md
section 3.6. -/
def Obligations.RoundConstants : Prop :=
  (∀ j, j ≤ 15 → roundConst j = 0x79CC4519#32) ∧
  (∀ j, 16 ≤ j → j ≤ 63 → roundConst j = 0x7A879D8A#32) ∧
  (List.range 64).map rotatedConst =
    [0x79CC4519#32, 0xF3988A32#32, 0xE7311465#32, 0xCE6228CB#32,
     0x9CC45197#32, 0x3988A32F#32, 0x7311465E#32, 0xE6228CBC#32,
     0xCC451979#32, 0x988A32F3#32, 0x311465E7#32, 0x6228CBCE#32,
     0xC451979C#32, 0x88A32F39#32, 0x11465E73#32, 0x228CBCE6#32,
     0x9D8A7A87#32, 0x3B14F50F#32, 0x7629EA1E#32, 0xEC53D43C#32,
     0xD8A7A879#32, 0xB14F50F3#32, 0x629EA1E7#32, 0xC53D43CE#32,
     0x8A7A879D#32, 0x14F50F3B#32, 0x29EA1E76#32, 0x53D43CEC#32,
     0xA7A879D8#32, 0x4F50F3B1#32, 0x9EA1E762#32, 0x3D43CEC5#32,
     0x7A879D8A#32, 0xF50F3B14#32, 0xEA1E7629#32, 0xD43CEC53#32,
     0xA879D8A7#32, 0x50F3B14F#32, 0xA1E7629E#32, 0x43CEC53D#32,
     0x879D8A7A#32, 0x0F3B14F5#32, 0x1E7629EA#32, 0x3CEC53D4#32,
     0x79D8A7A8#32, 0xF3B14F50#32, 0xE7629EA1#32, 0xCEC53D43#32,
     0x9D8A7A87#32, 0x3B14F50F#32, 0x7629EA1E#32, 0xEC53D43C#32,
     0xD8A7A879#32, 0xB14F50F3#32, 0x629EA1E7#32, 0xC53D43CE#32,
     0x8A7A879D#32, 0x14F50F3B#32, 0x29EA1E76#32, 0x53D43CEC#32,
     0xA7A879D8#32, 0x4F50F3B1#32, 0x9EA1E762#32, 0x3D43CEC5#32]

/-- R92, R93, R95: the schedule of a block, with `P1` written out as in R93. -/
def Obligations.ScheduleWords : Prop :=
  ∀ blk : Block,
    (∀ (i : Nat) (hi : i < 16), (schedule blk)[i].toNat =
      blk[4 * i].toNat * 2 ^ 24 + blk[4 * i + 1].toNat * 2 ^ 16 + blk[4 * i + 2].toNat * 2 ^ 8 +
        blk[4 * i + 3].toNat) ∧
    (∀ (j : Nat) (h0 : 16 ≤ j) (hj : j < 68), ∃ x : Word,
      x = (schedule blk)[j - 16] ^^^ (schedule blk)[j - 9] ^^^ rotl (schedule blk)[j - 3] 15 ∧
      (schedule blk)[j] = (x ^^^ rotl x 15 ^^^ rotl x 23)
        ^^^ rotl (schedule blk)[j - 13] 7 ^^^ (schedule blk)[j - 6]) ∧
    (∀ (j : Nat) (hj : j < 64), derivedWord (schedule blk) j hj =
      (schedule blk)[j] ^^^ (schedule blk)[j + 4])

/-- R98, R99, R101: the registers start as the state, go through 64 rounds, each of which updates all
eight from the old ones, and the result is the state XOR the final registers. -/
def Obligations.CompressIsSixtyFourRounds : Prop :=
  ∀ (v : ChainState) (blk : Block), ∃ r : Nat → Regs,
    r 0 = { a := v[0], b := v[1], c := v[2], d := v[3], e := v[4], f := v[5], g := v[6],
            h := v[7] } ∧
    (∀ (j : Nat) (hj : j < 64), ∃ ss1 ss2 tt1 tt2 : Word,
      ss1 = rotl (rotl (r j).a 12 + (r j).e + rotatedConst j) 7 ∧
      ss2 = ss1 ^^^ rotl (r j).a 12 ∧
      tt1 = FF j (r j).a (r j).b (r j).c + (r j).d + ss2 +
        ((schedule blk)[j] ^^^ (schedule blk)[j + 4]) ∧
      tt2 = GG j (r j).e (r j).f (r j).g + (r j).h + ss1 + (schedule blk)[j] ∧
      r (j + 1) = { a := tt1, b := (r j).a, c := rotl (r j).b 9, d := (r j).c,
                    e := tt2 ^^^ rotl tt2 9 ^^^ rotl tt2 17, f := (r j).e,
                    g := rotl (r j).f 19, h := (r j).g }) ∧
    compress v blk = #v[v[0] ^^^ (r 64).a, v[1] ^^^ (r 64).b, v[2] ^^^ (r 64).c,
      v[3] ^^^ (r 64).d, v[4] ^^^ (r 64).e, v[5] ^^^ (r 64).f, v[6] ^^^ (r 64).g,
      v[7] ^^^ (r 64).h]

/-- The worked example of 42_compression.md section 4, one compression. -/
def Obligations.CompressKnownAnswer : Prop :=
  compress iv abcBlock = #v[0x66C7F0F4#32, 0x62EEEDD9#32, 0xD1F2D46B#32, 0xDC10E4E2#32,
    0x4167C487#32, 0x5CF2F7A2#32, 0x297DA02B#32, 0x8F4BA8E0#32]

/-! Serializer and whole computations. -/

/-- R115 and R126: the bytes of `serialize`, the words of `parse`, and that each undoes the other. -/
def Obligations.ParseSerializeInverse : Prop :=
  (∀ (v : ChainState) (i k : Nat) (hi : i < 8) (hk : k < 4),
    (serialize v)[4 * i + k] = (v[i]).extractLsb' (24 - 8 * k) 8) ∧
  (∀ (d : Digest) (i : Nat) (hi : i < 8),
    (parse d)[i].toNat = d[4 * i].toNat * 2 ^ 24 + d[4 * i + 1].toNat * 2 ^ 16 +
      d[4 * i + 2].toNat * 2 ^ 8 + d[4 * i + 3].toNat) ∧
  (∀ v : ChainState, parse (serialize v) = v) ∧ (∀ d : Digest, serialize (parse d) = d)

/-- 43_hash_engine.md section 5 (HASH): on a block with `ERR = 0` in any phase, for every message up to
`MAXLEN` bytes, the sequence `INIT; PUSHALL m; FINAL; RDDG`, sent as frames, raises no fault and its
one response is `sm3(m)`. The block's `BLK` and `V` before it do not matter. -/
def Obligations.HashSequenceComputesSm3 : Prop :=
  ∀ (s : State) (m : List Byte), s.err = false → s.rst = false → m.length ≤ 2 ^ 61 - 1 →
    ∃ t, runCommands s (hashSequence m) = .next t ∧
      t.respPort = s.respPort ++ [(sm3 m).toList] ∧ t.err = false ∧ t.phase = .fin ∧
      t.len = BitVec.ofNat 64 m.length ∧ Ended t

/-- 44_state_load.md section 3 (FORGE): the sequence `LDST d, prefixlen(L); PUSHALL s; FINAL; RDDG`
answers `forge(d, L, s)`. -/
def Obligations.ForgeSequenceComputesForge : Prop :=
  ∀ (s : State) (d : Digest) (len : Nat) (suffix : List Byte), s.err = false → s.rst = false →
    prefixlen len + suffix.length ≤ 2 ^ 61 - 1 →
      ∃ t, runCommands s (forgeSequence d len suffix) = .next t ∧
        t.respPort = s.respPort ++ [(forge d len suffix).toList] ∧ t.err = false ∧
        t.phase = .fin ∧ Ended t

/-- 44_state_load.md section 3, length extension: `forge(sm3(x), len(x), s) = sm3(pad(x, len(x)) ‖ s)`.
The spec's bound on the lengths is not needed for the equation; for a message
beyond `MAXLEN`, what `sm3` is, is the model's choice (DESIGN CHOICE, log 23). -/
def Obligations.LengthExtension : Prop :=
  ∀ x suffix : List Byte,
    forge (sm3 x) x.length suffix = sm3 (pad x x.length ++ suffix)

/-- R152: a system of instances is their product. Whatever the interleaving of their steps, each
instance ends where its own steps alone take it. -/
def Obligations.InstancesAreIndependent : Prop :=
  ∀ (n : Nat) (order : List (Fin n)) (sys : System n),
    ∃ t, runInterleaved order sys = .next t ∧
      ∀ k : Fin n, Host.Core.run core (order.count k) sys[k.val] = .next t[k.val]
end

