-- ==== Sys2Proof/Laws/State.lean ====
section
/-! SUPPORT. What each named operation leaves in each field of the state: one lemma per field per
operation, true by definition. -/

namespace Sys2Proof.Machine

/-- Asserting reset changes nothing by itself: the next step performs it (DESIGN CHOICE, log 6). -/
@[simp] theorem assertReset_status (s : State) : s.assertReset.status = s.status := rfl

@[simp] theorem raise_v (s : State) (c : Cause) : (s.raise c).v = s.v := rfl
@[simp] theorem raise_tail (s : State) (c : Cause) : (s.raise c).tail = s.tail := rfl
@[simp] theorem raise_len (s : State) (c : Cause) : (s.raise c).len = s.len := rfl
@[simp] theorem raise_phase (s : State) (c : Cause) : (s.raise c).phase = s.phase := rfl
@[simp] theorem raise_err (s : State) (c : Cause) : (s.raise c).err = true := rfl
@[simp] theorem raise_errc (s : State) (c : Cause) : (s.raise c).errc = c.code := rfl
@[simp] theorem raise_cmdPort (s : State) (c : Cause) : (s.raise c).cmdPort = s.cmdPort := rfl
@[simp] theorem raise_respPort (s : State) (c : Cause) : (s.raise c).respPort = s.respPort := rfl
@[simp] theorem raise_rst (s : State) (c : Cause) : (s.raise c).rst = s.rst := rfl
@[simp] theorem raise_resets (s : State) (c : Cause) : (s.raise c).resets = s.resets := rfl

@[simp] theorem respond_v (s : State) (r : List Byte) : (s.respond r).v = s.v := rfl
@[simp] theorem respond_tail (s : State) (r : List Byte) : (s.respond r).tail = s.tail := rfl
@[simp] theorem respond_len (s : State) (r : List Byte) : (s.respond r).len = s.len := rfl
@[simp] theorem respond_phase (s : State) (r : List Byte) : (s.respond r).phase = s.phase := rfl
@[simp] theorem respond_err (s : State) (r : List Byte) : (s.respond r).err = s.err := rfl
@[simp] theorem respond_errc (s : State) (r : List Byte) : (s.respond r).errc = s.errc := rfl
@[simp] theorem respond_cmdPort (s : State) (r : List Byte) :
    (s.respond r).cmdPort = s.cmdPort := rfl
@[simp] theorem respond_respPort (s : State) (r : List Byte) :
    (s.respond r).respPort = s.respPort ++ [r] := rfl
@[simp] theorem respond_rst (s : State) (r : List Byte) : (s.respond r).rst = s.rst := rfl
@[simp] theorem respond_resets (s : State) (r : List Byte) : (s.respond r).resets = s.resets := rfl

@[simp] theorem openWith_v (s : State) (w : ChainState) (l : BitVec 64) :
    (s.openWith w l).v = w := rfl
@[simp] theorem openWith_tail (s : State) (w : ChainState) (l : BitVec 64) :
    (s.openWith w l).tail = [] := rfl
@[simp] theorem openWith_len (s : State) (w : ChainState) (l : BitVec 64) :
    (s.openWith w l).len = l := rfl
@[simp] theorem openWith_phase (s : State) (w : ChainState) (l : BitVec 64) :
    (s.openWith w l).phase = .active := rfl
@[simp] theorem openWith_err (s : State) (w : ChainState) (l : BitVec 64) :
    (s.openWith w l).err = s.err := rfl
@[simp] theorem openWith_errc (s : State) (w : ChainState) (l : BitVec 64) :
    (s.openWith w l).errc = s.errc := rfl
@[simp] theorem openWith_cmdPort (s : State) (w : ChainState) (l : BitVec 64) :
    (s.openWith w l).cmdPort = s.cmdPort := rfl
@[simp] theorem openWith_respPort (s : State) (w : ChainState) (l : BitVec 64) :
    (s.openWith w l).respPort = s.respPort := rfl
@[simp] theorem openWith_rst (s : State) (w : ChainState) (l : BitVec 64) :
    (s.openWith w l).rst = s.rst := rfl
@[simp] theorem openWith_resets (s : State) (w : ChainState) (l : BitVec 64) :
    (s.openWith w l).resets = s.resets := rfl

@[simp] theorem compressBlock_v (s : State) (b : Block) :
    (s.compressBlock b).v = compress s.v b := rfl
@[simp] theorem compressBlock_tail (s : State) (b : Block) :
    (s.compressBlock b).tail = s.tail := rfl
@[simp] theorem compressBlock_len (s : State) (b : Block) : (s.compressBlock b).len = s.len := rfl
@[simp] theorem compressBlock_phase (s : State) (b : Block) :
    (s.compressBlock b).phase = s.phase := rfl
@[simp] theorem compressBlock_err (s : State) (b : Block) : (s.compressBlock b).err = s.err := rfl
@[simp] theorem compressBlock_errc (s : State) (b : Block) :
    (s.compressBlock b).errc = s.errc := rfl
@[simp] theorem compressBlock_cmdPort (s : State) (b : Block) :
    (s.compressBlock b).cmdPort = s.cmdPort := rfl
@[simp] theorem compressBlock_respPort (s : State) (b : Block) :
    (s.compressBlock b).respPort = s.respPort := rfl
@[simp] theorem compressBlock_rst (s : State) (b : Block) : (s.compressBlock b).rst = s.rst := rfl
@[simp] theorem compressBlock_resets (s : State) (b : Block) :
    (s.compressBlock b).resets = s.resets := rfl

@[simp] theorem finish_v (s : State) :
    (s.finish).v = absorbBlocks s.v (tailblocks s.tail s.len.toNat) := rfl
@[simp] theorem finish_tail (s : State) : (s.finish).tail = [] := rfl
@[simp] theorem finish_len (s : State) : (s.finish).len = s.len := rfl
@[simp] theorem finish_phase (s : State) : (s.finish).phase = .fin := rfl
@[simp] theorem finish_err (s : State) : (s.finish).err = s.err := rfl
@[simp] theorem finish_errc (s : State) : (s.finish).errc = s.errc := rfl
@[simp] theorem finish_cmdPort (s : State) : (s.finish).cmdPort = s.cmdPort := rfl
@[simp] theorem finish_respPort (s : State) : (s.finish).respPort = s.respPort := rfl
@[simp] theorem finish_rst (s : State) : (s.finish).rst = s.rst := rfl
@[simp] theorem finish_resets (s : State) : (s.finish).resets = s.resets := rfl

@[simp] theorem applyReset_v (s : State) : (s.applyReset).v = Config.resetV (s.resets + 1) := rfl
@[simp] theorem applyReset_tail (s : State) : (s.applyReset).tail = [] := rfl
@[simp] theorem applyReset_len (s : State) : (s.applyReset).len = 0#64 := rfl
@[simp] theorem applyReset_phase (s : State) : (s.applyReset).phase = .idle := rfl
@[simp] theorem applyReset_err (s : State) : (s.applyReset).err = false := rfl
@[simp] theorem applyReset_errc (s : State) : (s.applyReset).errc = 0#4 := rfl
@[simp] theorem applyReset_cmdPort (s : State) : (s.applyReset).cmdPort = [] := rfl
@[simp] theorem applyReset_respPort (s : State) : (s.applyReset).respPort = s.respPort := rfl
@[simp] theorem applyReset_rst (s : State) : (s.applyReset).rst = false := rfl
@[simp] theorem applyReset_resets (s : State) : (s.applyReset).resets = s.resets + 1 := rfl

@[simp] theorem sendFrame_v (s : State) (f : Frame) : (s.sendFrame f).v = s.v := rfl
@[simp] theorem sendFrame_tail (s : State) (f : Frame) : (s.sendFrame f).tail = s.tail := rfl
@[simp] theorem sendFrame_len (s : State) (f : Frame) : (s.sendFrame f).len = s.len := rfl
@[simp] theorem sendFrame_phase (s : State) (f : Frame) : (s.sendFrame f).phase = s.phase := rfl
@[simp] theorem sendFrame_err (s : State) (f : Frame) : (s.sendFrame f).err = s.err := rfl
@[simp] theorem sendFrame_errc (s : State) (f : Frame) : (s.sendFrame f).errc = s.errc := rfl
@[simp] theorem sendFrame_cmdPort (s : State) (f : Frame) :
    (s.sendFrame f).cmdPort = s.cmdPort ++ [f] := rfl
@[simp] theorem sendFrame_respPort (s : State) (f : Frame) :
    (s.sendFrame f).respPort = s.respPort := rfl
@[simp] theorem sendFrame_rst (s : State) (f : Frame) : (s.sendFrame f).rst = s.rst := rfl
@[simp] theorem sendFrame_resets (s : State) (f : Frame) : (s.sendFrame f).resets = s.resets := rfl

@[simp] theorem assertReset_v (s : State) : (s.assertReset).v = s.v := rfl
@[simp] theorem assertReset_tail (s : State) : (s.assertReset).tail = s.tail := rfl
@[simp] theorem assertReset_len (s : State) : (s.assertReset).len = s.len := rfl
@[simp] theorem assertReset_phase (s : State) : (s.assertReset).phase = s.phase := rfl
@[simp] theorem assertReset_err (s : State) : (s.assertReset).err = s.err := rfl
@[simp] theorem assertReset_errc (s : State) : (s.assertReset).errc = s.errc := rfl
@[simp] theorem assertReset_cmdPort (s : State) : (s.assertReset).cmdPort = s.cmdPort := rfl
@[simp] theorem assertReset_respPort (s : State) : (s.assertReset).respPort = s.respPort := rfl
@[simp] theorem assertReset_rst (s : State) : (s.assertReset).rst = true := rfl
@[simp] theorem assertReset_resets (s : State) : (s.assertReset).resets = s.resets := rfl

end Sys2Proof.Machine
end

