-- ==== Sys2Proof/Laws/Ops.lean ====
section
/-! SUPPORT. What the shared operations can do, said once: the ordered checks, the ports, absorbing. -/

namespace Sys2Proof.Machine

@[simp] theorem firstFault_nil : firstFault [] = none := rfl

@[simp] theorem firstFault_cons_true (c : Cause) (rest : List (Bool × Cause)) :
    firstFault ((true, c) :: rest) = some c := rfl

@[simp] theorem firstFault_cons_false (c : Cause) (rest : List (Bool × Cause)) :
    firstFault ((false, c) :: rest) = firstFault rest := rfl

/-- The fault reported is one of the list, and its condition holds. -/
theorem firstFault_mem {checks : List (Bool × Cause)} {c : Cause}
    (h : firstFault checks = some c) : (true, c) ∈ checks := by
  induction checks with
  | nil => cases h
  | cons x rest ih =>
    obtain ⟨b, d⟩ := x
    cases b with
    | true => cases h; exact List.mem_cons_self
    | false => exact List.mem_cons_of_mem _ (ih h)

/-- No fault is reported exactly when every condition fails. -/
theorem firstFault_none {checks : List (Bool × Cause)} (h : firstFault checks = none) :
    ∀ x ∈ checks, x.1 = false := by
  induction checks with
  | nil => simp
  | cons x rest ih =>
    obtain ⟨b, d⟩ := x
    cases b with
    | true => cases h
    | false => simpa using ih h

/-- Blocked while `ERR = 1` (R142). -/
theorem guarded_of_err {s : State} (h : s.err = true) (checks : List (Bool × Cause)) (done : State) :
    s.guarded checks done = s := by
  simp [State.guarded, h]

/-- A command with no failing check has its whole effect. -/
theorem guarded_of_none {s : State} (h : s.err = false) {checks : List (Bool × Cause)}
    (hc : firstFault checks = none) (done : State) : s.guarded checks done = done := by
  simp [State.guarded, h, hc]

/-- A command with a failing check raises the first one (R139, R141). -/
theorem guarded_of_some {s : State} (h : s.err = false) {checks : List (Bool × Cause)} {c : Cause}
    (hc : firstFault checks = some c) (done : State) : s.guarded checks done = s.raise c := by
  simp [State.guarded, h, hc]

/-- Everything a guarded command can do. -/
theorem guarded_cases (s : State) (checks : List (Bool × Cause)) (done : State) :
    (s.err = true ∧ s.guarded checks done = s) ∨
    (s.err = false ∧ ∃ c, firstFault checks = some c ∧ s.guarded checks done = s.raise c) ∨
    (s.err = false ∧ firstFault checks = none ∧ s.guarded checks done = done) := by
  cases he : s.err with
  | true => exact .inl ⟨rfl, guarded_of_err he _ _⟩
  | false =>
    cases hc : firstFault checks with
    | none => exact .inr (.inr ⟨rfl, rfl, guarded_of_none he hc _⟩)
    | some c => exact .inr (.inl ⟨rfl, c, rfl, guarded_of_some he hc _⟩)

/-- An illegal frame: ignored while `ERR = 1`, else `ILLEGAL_CMD` (R137, R142). -/
theorem illegalFrame_eq (s : State) :
    s.illegalFrame = if s.err then s else s.raise .illegalCmd := by
  cases h : s.err <;> simp [State.illegalFrame, State.guarded, h]

theorem takeFrame_nil {s : State} (h : s.cmdPort = []) : s.takeFrame = none := by
  simp [State.takeFrame, h]

theorem takeFrame_cons {s : State} {f : Frame} {rest : List Frame} (h : s.cmdPort = f :: rest) :
    s.takeFrame = some (f, { s with cmdPort := rest }) := by
  simp [State.takeFrame, h]

/-- Absorbing a byte that does not fill the buffer (R83, `r < 63`). -/
theorem absorb_of_short {s : State} (b : Byte) (h : s.tail.length ≠ 63) :
    s.absorb b = { s with tail := s.tail ++ [b], len := s.len + 1#64 } := by
  have : ¬ (s.tail ++ [b]).length = 64 := by simp; omega
  simp only [State.absorb, this, dif_neg, not_false_eq_true]

/-- Absorbing the byte that fills the buffer (R83, `r = 63`). -/
theorem absorb_of_full {s : State} {b : Byte} {blk : Block} (h : blk.toList = s.tail ++ [b]) :
    s.absorb b = { s with v := compress s.v blk, tail := [], len := s.len + 1#64 } := by
  have hl : (s.tail ++ [b]).length = 64 := by simp [← h]
  have hb : blockOperand (s.tail ++ [b]) hl = blk := by
    apply Vector.toList_inj.mp
    rw [h]
    simp [blockOperand, Vector.toList]
  simp only [State.absorb, hl, dif_pos, hb]

@[simp] theorem absorb_phase (s : State) (b : Byte) : (s.absorb b).phase = s.phase := by
  unfold State.absorb; split <;> rfl

@[simp] theorem absorb_err (s : State) (b : Byte) : (s.absorb b).err = s.err := by
  unfold State.absorb; split <;> rfl

@[simp] theorem absorb_errc (s : State) (b : Byte) : (s.absorb b).errc = s.errc := by
  unfold State.absorb; split <;> rfl

@[simp] theorem absorb_cmdPort (s : State) (b : Byte) : (s.absorb b).cmdPort = s.cmdPort := by
  unfold State.absorb; split <;> rfl

@[simp] theorem absorb_respPort (s : State) (b : Byte) : (s.absorb b).respPort = s.respPort := by
  unfold State.absorb; split <;> rfl

@[simp] theorem absorb_rst (s : State) (b : Byte) : (s.absorb b).rst = s.rst := by
  unfold State.absorb; split <;> rfl

@[simp] theorem absorb_resets (s : State) (b : Byte) : (s.absorb b).resets = s.resets := by
  unfold State.absorb; split <;> rfl

@[simp] theorem absorb_len (s : State) (b : Byte) : (s.absorb b).len = s.len + 1#64 := by
  unfold State.absorb; split <;> rfl

@[simp] theorem absorbAll_nil (s : State) : s.absorbAll [] = s := rfl

@[simp] theorem absorbAll_cons (s : State) (b : Byte) (m : List Byte) :
    s.absorbAll (b :: m) = (s.absorb b).absorbAll m := rfl

theorem absorbAll_append (s : State) (m m' : List Byte) :
    s.absorbAll (m ++ m') = (s.absorbAll m).absorbAll m' :=
  List.foldl_append

@[simp] theorem absorbAll_phase (s : State) (m : List Byte) : (s.absorbAll m).phase = s.phase := by
  induction m generalizing s with
  | nil => rfl
  | cons b m ih => simp [ih]

@[simp] theorem absorbAll_err (s : State) (m : List Byte) : (s.absorbAll m).err = s.err := by
  induction m generalizing s with
  | nil => rfl
  | cons b m ih => simp [ih]

@[simp] theorem absorbAll_errc (s : State) (m : List Byte) : (s.absorbAll m).errc = s.errc := by
  induction m generalizing s with
  | nil => rfl
  | cons b m ih => simp [ih]

@[simp] theorem absorbAll_cmdPort (s : State) (m : List Byte) :
    (s.absorbAll m).cmdPort = s.cmdPort := by
  induction m generalizing s with
  | nil => rfl
  | cons b m ih => simp [ih]

@[simp] theorem absorbAll_respPort (s : State) (m : List Byte) :
    (s.absorbAll m).respPort = s.respPort := by
  induction m generalizing s with
  | nil => rfl
  | cons b m ih => simp [ih]

@[simp] theorem absorbAll_rst (s : State) (m : List Byte) : (s.absorbAll m).rst = s.rst := by
  induction m generalizing s with
  | nil => rfl
  | cons b m ih => simp [ih]

@[simp] theorem absorbAll_resets (s : State) (m : List Byte) :
    (s.absorbAll m).resets = s.resets := by
  induction m generalizing s with
  | nil => rfl
  | cons b m ih => simp [ih]

/-- PUSH counts every byte it absorbs (R19). -/
theorem absorbAll_len (s : State) (m : List Byte) :
    (s.absorbAll m).len = s.len + BitVec.ofNat 64 m.length := by
  induction m generalizing s with
  | nil => simp
  | cons b m ih =>
    rw [absorbAll_cons, ih, absorb_len, List.length_cons, BitVec.add_assoc, Nat.add_comm m.length 1,
      BitVec.ofNat_add]

end Sys2Proof.Machine
end

