-- ==== Sys2Proof/Laws/Bytes.lean ====
section
/-! SUPPORT. The byte-order helpers: lengths, and that reading back what was written gives it again. -/

namespace Sys2Proof.Machine

@[simp] theorem toBE32_length (w : Word) : (toBE32 w).length = 4 := rfl

@[simp] theorem toBE64_length (w : BitVec 64) : (toBE64 w).length = 8 := rfl

/-- A frame is its command word and its payload (R46). -/
theorem encode_length (i : Instr) : (encode i).length = 4 + (payload i).length := by
  rw [encode, List.length_append, toBE32_length]

/-- The number four big-endian bytes denote fits a word (R11). -/
theorem ofBE32_toNat (b0 b1 b2 b3 : Byte) : (ofBE32 b0 b1 b2 b3).toNat =
    b0.toNat * 2 ^ 24 + b1.toNat * 2 ^ 16 + b2.toNat * 2 ^ 8 + b3.toNat := by
  have h0 := b0.isLt
  have h1 := b1.isLt
  have h2 := b2.isLt
  have h3 := b3.isLt
  rw [ofBE32, BitVec.toNat_ofNat]
  omega

/-- The number eight big-endian bytes denote fits 64 bits (R11). -/
theorem ofBE64_toNat (b0 b1 b2 b3 b4 b5 b6 b7 : Byte) : (ofBE64 b0 b1 b2 b3 b4 b5 b6 b7).toNat =
    b0.toNat * 2 ^ 56 + b1.toNat * 2 ^ 48 + b2.toNat * 2 ^ 40 + b3.toNat * 2 ^ 32 +
      b4.toNat * 2 ^ 24 + b5.toNat * 2 ^ 16 + b6.toNat * 2 ^ 8 + b7.toNat := by
  have h0 := b0.isLt
  have h1 := b1.isLt
  have h2 := b2.isLt
  have h3 := b3.isLt
  have h4 := b4.isLt
  have h5 := b5.isLt
  have h6 := b6.isLt
  have h7 := b7.isLt
  rw [ofBE64, BitVec.toNat_ofNat]
  omega

/-- A byte of a vector, as the number it denotes. -/
theorem byte_toNat {n : Nat} (w : BitVec n) (k : Nat) :
    (w.extractLsb' k 8).toNat = w.toNat / 2 ^ k % 256 := by
  rw [BitVec.extractLsb'_toNat, Nat.shiftRight_eq_div_pow]

/-- Reading a word's four bytes in order gives the word (R11). -/
theorem ofBE32_bytes (w : Word) :
    ofBE32 (w.extractLsb' 24 8) (w.extractLsb' 16 8) (w.extractLsb' 8 8) (w.extractLsb' 0 8) = w := by
  have h := w.isLt
  apply BitVec.eq_of_toNat_eq
  rw [ofBE32_toNat, byte_toNat, byte_toNat, byte_toNat, byte_toNat]
  omega

/-- Reading the eight bytes of a 64-bit value in order gives the value (R11). -/
theorem ofBE64_bytes (v : BitVec 64) :
    ofBE64 (v.extractLsb' 56 8) (v.extractLsb' 48 8) (v.extractLsb' 40 8) (v.extractLsb' 32 8)
      (v.extractLsb' 24 8) (v.extractLsb' 16 8) (v.extractLsb' 8 8) (v.extractLsb' 0 8) = v := by
  have h := v.isLt
  apply BitVec.eq_of_toNat_eq
  rw [ofBE64_toNat, byte_toNat, byte_toNat, byte_toNat, byte_toNat, byte_toNat, byte_toNat,
    byte_toNat, byte_toNat]
  omega

/-- Writing the word read from four bytes gives the bytes (R11). -/
theorem toBE32_ofBE32 (b0 b1 b2 b3 : Byte) : toBE32 (ofBE32 b0 b1 b2 b3) = [b0, b1, b2, b3] := by
  have h0 := b0.isLt
  have h1 := b1.isLt
  have h2 := b2.isLt
  have h3 := b3.isLt
  simp only [toBE32, List.cons.injEq, and_true]
  refine ⟨?_, ?_, ?_, ?_⟩ <;>
    (apply BitVec.eq_of_toNat_eq; rw [byte_toNat, ofBE32_toNat]; omega)

/-- Writing the value read from eight bytes gives the bytes (R11). -/
theorem toBE64_ofBE64 (b0 b1 b2 b3 b4 b5 b6 b7 : Byte) :
    toBE64 (ofBE64 b0 b1 b2 b3 b4 b5 b6 b7) = [b0, b1, b2, b3, b4, b5, b6, b7] := by
  have h0 := b0.isLt
  have h1 := b1.isLt
  have h2 := b2.isLt
  have h3 := b3.isLt
  have h4 := b4.isLt
  have h5 := b5.isLt
  have h6 := b6.isLt
  have h7 := b7.isLt
  simp only [toBE64, List.cons.injEq, and_true]
  refine ⟨?_, ?_, ?_, ?_, ?_, ?_, ?_, ?_⟩ <;>
    (apply BitVec.eq_of_toNat_eq; rw [byte_toNat, ofBE64_toNat]; omega)

/-- The `n` field fits 24 bits (R47). -/
theorem countField_lt (b1 b2 b3 : Byte) : countField b1 b2 b3 < 2 ^ 24 := by
  have h1 := b1.isLt
  have h2 := b2.isLt
  have h3 := b3.isLt
  unfold countField
  omega

/-- The first four bytes of an encoded command: the opcode, then `n` in three bytes (R46). -/
theorem toBE32_commandWord (i : Instr) : toBE32 (commandWord i) =
    [opcode i, BitVec.ofNat 8 (countOf i / 65536), BitVec.ofNat 8 (countOf i / 256),
     BitVec.ofNat 8 (countOf i)] := by
  have h0 := (opcode i).isLt
  simp only [toBE32, commandWord, List.cons.injEq, and_true]
  refine ⟨?_, ?_, ?_, ?_⟩ <;>
    (apply BitVec.eq_of_toNat_eq; rw [byte_toNat, BitVec.toNat_ofNat]; try rw [BitVec.toNat_ofNat]) <;>
    omega

/-- Three bytes of a count below `2^24` give it back (R47). -/
theorem countField_ofNat {n : Nat} (h : n < 2 ^ 24) :
    countField (BitVec.ofNat 8 (n / 65536)) (BitVec.ofNat 8 (n / 256)) (BitVec.ofNat 8 n) = n := by
  unfold countField
  rw [BitVec.toNat_ofNat, BitVec.toNat_ofNat, BitVec.toNat_ofNat]
  omega

/-- The frame of a command, byte by byte (R55). -/
theorem encode_eq (i : Instr) : encode i =
    opcode i :: BitVec.ofNat 8 (countOf i / 65536) :: BitVec.ofNat 8 (countOf i / 256) ::
      BitVec.ofNat 8 (countOf i) :: payload i := by
  rw [encode, toBE32_commandWord]
  rfl

end Sys2Proof.Machine
end

