-- ==== Sys2Proof/Laws/Padding.lean ====
section
/-! SUPPORT. The padding functions and the cutting of a byte string into blocks. -/

namespace Sys2Proof.Machine

/-- The marker makes the padding at least one byte long (R76). -/
theorem padlen_pos (len : Nat) : 1 ≤ padlen len := by
  unfold padlen
  split <;> omega

theorem padlen_le (len : Nat) : padlen len ≤ 64 := by
  unfold padlen
  split <;> omega

/-- Message, padding and length field fill whole blocks (R79). -/
theorem padlen_aligned (len : Nat) : (len + padlen len + 8) % 64 = 0 := by
  unfold padlen
  split <;> omega

theorem pad_length (m : List Byte) (len : Nat) :
    (pad m len).length = m.length + padlen len + 8 := by
  have := padlen_pos len
  simp [pad, nzero]
  omega

/-- Padding acts on the end of a byte string only (R82). -/
theorem pad_append (a b : List Byte) (len : Nat) : pad (a ++ b) len = a ++ pad b len := by
  simp [pad]

theorem blocks_nil : blocks [] = [] := rfl

/-- Fewer than 64 bytes hold no block. -/
theorem blocks_of_short {s : List Byte} (h : s.length < 64) : blocks s = [] := by
  rw [blocks, Nat.div_eq_of_lt h]
  rfl

/-- A leading block comes first (R80). -/
theorem blocks_cons (blk : Block) (s : List Byte) : blocks (blk.toList ++ s) = blk :: blocks s := by
  have hl : (blk.toList ++ s).length / 64 = s.length / 64 + 1 := by simp
  have h64 : 64 ≤ (blk.toList ++ s).length := by simp
  rw [blocks, hl, blocksUpTo, dif_pos h64, List.drop_left' (by simp)]
  congr 1
  apply Vector.toList_inj.mp
  show (blk.toList ++ s).take 64 = blk.toList
  rw [List.take_left' (by simp)]

/-- A byte string of at least 64 bytes begins with a block. -/
theorem exists_block {s : List Byte} (h : 64 ≤ s.length) :
    ∃ (blk : Block) (rest : List Byte), s = blk.toList ++ rest ∧ rest.length = s.length - 64 :=
  ⟨⟨(s.take 64).toArray, by simp [h]⟩, s.drop 64, (List.take_append_drop 64 s).symm, by simp⟩

/-- A byte string of whole blocks is cut on its own (R80, R82). -/
theorem blocks_append {a : List Byte} (b : List Byte) (h : a.length % 64 = 0) :
    blocks (a ++ b) = blocks a ++ blocks b := by
  obtain ⟨q, hq⟩ : ∃ q, a.length = 64 * q := ⟨a.length / 64, by omega⟩
  clear h
  induction q generalizing a with
  | zero =>
    obtain rfl : a = [] := List.length_eq_zero_iff.mp (by omega)
    rfl
  | succ q ih =>
    obtain ⟨blk, rest, rfl, hr⟩ := exists_block (s := a) (by omega)
    rw [List.append_assoc, blocks_cons, blocks_cons, ih (by omega), List.cons_append]

/-- Bytes beyond the last whole block make no block. -/
theorem blocks_take (s : List Byte) : blocks (s.take (64 * (s.length / 64))) = blocks s := by
  have hb : (s.drop (64 * (s.length / 64))).length < 64 := by simp; omega
  have ha : (s.take (64 * (s.length / 64))).length % 64 = 0 := by simp; omega
  have h := blocks_append (s.drop (64 * (s.length / 64))) ha
  rw [List.take_append_drop, blocks_of_short hb, List.append_nil] at h
  exact h.symm

/-- What is left beyond the last whole block, after a string of whole blocks. -/
theorem drop_blocks {a : List Byte} (b : List Byte) (h : a.length % 64 = 0) :
    (a ++ b).drop (64 * ((a ++ b).length / 64)) = b.drop (64 * (b.length / 64)) := by
  obtain ⟨q, hq⟩ : ∃ q, a.length = 64 * q := ⟨a.length / 64, by omega⟩
  have hl : 64 * ((a ++ b).length / 64) = a.length + 64 * (b.length / 64) := by
    rw [List.length_append]
    omega
  rw [hl, List.drop_length_add_append]

theorem blocks_length (s : List Byte) : (blocks s).length = s.length / 64 := by
  obtain ⟨q, hq⟩ : ∃ q, s.length / 64 = q := ⟨_, rfl⟩
  induction q generalizing s with
  | zero => rw [blocks_of_short (by omega), hq]; rfl
  | succ q ih =>
    obtain ⟨blk, rest, rfl, hr⟩ := exists_block (s := s) (by omega)
    rw [blocks_cons, List.length_cons, ih rest (by omega)]
    omega

/-- Absorbing two lists of blocks one after the other (R104). -/
theorem absorbBlocks_append (v : ChainState) (a b : List Block) :
    absorbBlocks v (a ++ b) = absorbBlocks (absorbBlocks v a) b :=
  List.foldl_append

@[simp] theorem absorbBlocks_nil (v : ChainState) : absorbBlocks v [] = v := rfl

@[simp] theorem absorbBlocks_cons (v : ChainState) (b : Block) (bs : List Block) :
    absorbBlocks v (b :: bs) = absorbBlocks (compress v b) bs := rfl

end Sys2Proof.Machine
end

