-- ==== Sys2Proof/Laws/Absorb.lean ====
section
/-! SUPPORT. What absorbing a byte string does to a state whose buffer is not full: PUSH's two forms in
R84 agree. -/

namespace Sys2Proof.Machine

/-- Absorbing one byte, as cutting the buffer and the byte into blocks. -/
theorem absorb_eq {s : State} (b : Byte) (h : s.tail.length < 64) :
    s.absorb b = { s with
      v := absorbBlocks s.v (blocks (s.tail ++ [b])),
      tail := (s.tail ++ [b]).drop (64 * ((s.tail ++ [b]).length / 64)),
      len := s.len + 1#64 } := by
  by_cases hf : s.tail.length = 63
  · obtain ⟨blk, rest, hb, hr⟩ := exists_block (s := s.tail ++ [b]) (by simp [hf])
    obtain rfl : rest = [] := List.length_eq_zero_iff.mp (by rw [hr]; simp [hf])
    rw [List.append_nil] at hb
    rw [absorb_of_full hb.symm, hb, ← List.append_nil blk.toList, blocks_cons, blocks_nil]
    simp
  · have hs : (s.tail ++ [b]).length < 64 := by simp; omega
    rw [absorb_of_short b hf, blocks_of_short hs, Nat.div_eq_of_lt hs]
    rfl

/-- Absorbing a byte string: the full blocks of tail and string are compressed in order, the rest is
the new tail (R84). -/
theorem absorbAll_eq {s : State} (m : List Byte) (h : s.tail.length < 64) :
    s.absorbAll m = { s with
      v := absorbBlocks s.v (blocks (s.tail ++ m)),
      tail := (s.tail ++ m).drop (64 * ((s.tail ++ m).length / 64)),
      len := s.len + BitVec.ofNat 64 m.length } := by
  induction m generalizing s with
  | nil =>
    have hd : s.tail.length / 64 = 0 := Nat.div_eq_of_lt h
    simp [blocks_of_short h, hd]
  | cons b m ih =>
    have hq : 64 * ((s.tail ++ [b]).length / 64) ≤ (s.tail ++ [b]).length := by omega
    have ha : ((s.tail ++ [b]).take (64 * ((s.tail ++ [b]).length / 64))).length % 64 = 0 := by
      rw [List.length_take, Nat.min_eq_left hq]
      omega
    have hsplit : s.tail ++ b :: m =
        (s.tail ++ [b]).take (64 * ((s.tail ++ [b]).length / 64)) ++
          ((s.tail ++ [b]).drop (64 * ((s.tail ++ [b]).length / 64)) ++ m) := by
      rw [← List.append_assoc, List.take_append_drop, List.append_assoc, List.singleton_append]
    have hb := absorb_eq b h
    have ht : (s.absorb b).tail.length < 64 := by
      rw [hb]
      simp only [List.length_drop]
      omega
    rw [absorbAll_cons, ih ht, hb]
    simp only [State.mk.injEq, and_true]
    refine ⟨?_, ?_, ?_⟩
    · rw [← absorbBlocks_append]
      congr 1
      rw [hsplit, blocks_append _ ha, blocks_take]
    · conv_rhs => rw [hsplit, drop_blocks _ ha]
    · rw [List.length_cons, BitVec.add_assoc, Nat.add_comm m.length 1, BitVec.ofNat_add]

end Sys2Proof.Machine
end

