-- ==== Sys2Proof/Laws/Compress.lean ====
section
/-! SUPPORT. The message schedule word by word. -/

namespace Sys2Proof.Machine

/-- Expansion keeps the words it already has. -/
theorem expand_keeps (w : Vector Word 16) (k i : Nat) (h : i < 16 + k) :
    (expand w (k + 1))[i] = (expand w k)[i] := by
  show ((expand w k).push _)[i] = _
  rw [Vector.getElem_push_lt]

/-- The word appended at `j = 16 + k` (R93). -/
theorem expand_new (w : Vector Word 16) (k : Nat) :
    (expand w (k + 1))[16 + k] =
      P1 ((expand w k)[k] ^^^ (expand w k)[k + 7] ^^^ rotl (expand w k)[k + 13] 15)
        ^^^ rotl (expand w k)[k + 3] 7 ^^^ (expand w k)[k + 10] := by
  show ((expand w k).push _)[16 + k] = _
  rw [Vector.getElem_push_eq]

/-- Any later stage of the expansion agrees with an earlier one on its words. -/
theorem expand_of_le (w : Vector Word 16) {k n : Nat} (hk : k ≤ n) (i : Nat) (h : i < 16 + k) :
    (expand w n)[i] = (expand w k)[i] := by
  obtain ⟨d, rfl⟩ := Nat.exists_eq_add_of_le hk
  induction d with
  | zero => rfl
  | succ d ih => exact (expand_keeps w (k + d) i (by omega)).trans (ih (by omega))

/-- The first sixteen words are the block's (R92). -/
theorem schedule_block (blk : Block) (i : Nat) (h : i < 16) :
    (schedule blk)[i] = (blockWords blk)[i] :=
  expand_of_le (blockWords blk) (Nat.zero_le 52) i h

/-- One block word (R92). -/
theorem blockWords_getElem (blk : Block) (i : Nat) (h : i < 16) :
    (blockWords blk)[i] =
      ofBE32 blk[4 * i] blk[4 * i + 1] blk[4 * i + 2] blk[4 * i + 3] := by
  simp [blockWords]

/-- One round more (R99). -/
theorem roundsUpTo_succ (w : Vector Word 68) (r : Regs) (k : Nat) (h : k + 1 ≤ 64) :
    roundsUpTo w r (k + 1) h =
      cfRound k (roundsUpTo w r k (by omega)) w[k] (derivedWord w k (by omega)) := rfl

/-- The feedback, word by word (R101). -/
theorem compress_getElem (v : ChainState) (blk : Block) (i : Nat) (h : i < 8) :
    (compress v blk)[i] = v[i] ^^^ (regWords (finalRegs v blk))[i] := by
  rw [compress, Vector.getElem_ofFn]

end Sys2Proof.Machine
end

