-- ==== Sys2Proof/Laws/Exec.lean ====
section
/-! SUPPORT. What a command and a step can do, said once: every command ends in a next state, either
unchanged (blocked), with a fault recorded, or with its effect. -/

namespace Sys2Proof.Machine

/-- The whole effect of a command when it is not blocked and no check fails. -/
def effect : Instr → State → State
  | .init, s => s.openWith iv 0#64
  | .ldst d l0, s => s.openWith (parse d) l0
  | .push m, s => s.absorbAll m
  | .final, s => s.finish
  | .rddg, s => s.respond (serialize s.v).toList
  | .cblk blk, s => s.compressBlock blk
  | .rdsr, s => s.respond (toBE32 s.status)
  | .rdln, s => s.respond (toBE64 s.len)

/-- The checks of a command, in the order of R139. -/
def checksOf : Instr → State → List (Bool × Cause)
  | .init, _ => []
  | .ldst _ l0, _ =>
    [(decide (l0.toNat % 64 ≠ 0), .badOperand), (decide (maxLen < l0.toNat), .lenOverflow)]
  | .push m, s => [s.notActive, (decide (maxLen < s.len.toNat + m.length), .lenOverflow)]
  | .final, s => [s.notActive]
  | .rddg, s => [(decide (s.phase = .idle), .badPhase)]
  | .cblk _, s => [s.notActive, (decide (s.len.toNat % 64 ≠ 0), .blockMisaligned)]
  | .rdsr, _ => []
  | .rdln, _ => []

/-- Every command ends in a next state: an unconditional answer for RDSR and RDLN, its guarded effect
for the others. -/
theorem exec_eq (i : Instr) (s : State) :
    exec i s = .next
      (if i = .rdsr ∨ i = .rdln then effect i s else s.guarded (checksOf i s) (effect i s)) := by
  cases i <;> rfl

/-- Everything a command can do. -/
theorem exec_cases {i : Instr} {s t : State} (h : exec i s = .next t) :
    (s.err = true ∧ t = s) ∨
    (s.err = false ∧ ∃ c, firstFault (checksOf i s) = some c ∧ t = s.raise c) ∨
    ((s.err = false ∨ i = .rdsr ∨ i = .rdln) ∧ firstFault (checksOf i s) = none ∧
      t = effect i s) := by
  rw [exec_eq] at h
  injection h with h
  by_cases hr : i = .rdsr ∨ i = .rdln
  · rw [if_pos hr] at h
    refine .inr (.inr ⟨.inr hr, ?_, h.symm⟩)
    obtain rfl | rfl := hr <;> rfl
  · rw [if_neg hr] at h
    obtain ⟨he, hg⟩ | ⟨he, c, hc, hg⟩ | ⟨he, hc, hg⟩ := guarded_cases s (checksOf i s) (effect i s)
    · exact .inl ⟨he, h.symm.trans hg⟩
    · exact .inr (.inl ⟨he, c, hc, h.symm.trans hg⟩)
    · exact .inr (.inr ⟨.inl he, hc, h.symm.trans hg⟩)

/-- Everything a step can do. -/
theorem step_cases {s t : State} (h : step s = .next t) :
    (s.rst = true ∧ t = s.applyReset) ∨
    (s.rst = false ∧ s.cmdPort = [] ∧ t = s) ∨
    (s.rst = false ∧ ∃ f rest why, s.cmdPort = f :: rest ∧ decode f = .illegal why ∧
      t = ({ s with cmdPort := rest } : State).illegalFrame) ∨
    (s.rst = false ∧ ∃ f rest i, s.cmdPort = f :: rest ∧ decode f = .command i ∧
      exec i { s with cmdPort := rest } = .next t) := by
  unfold step at h
  by_cases hr : s.rst = true
  · rw [if_pos hr] at h
    injection h with h
    exact .inl ⟨hr, h.symm⟩
  · have hf : s.rst = false := by simpa using hr
    rw [if_neg hr] at h
    cases hc : s.cmdPort with
    | nil =>
      rw [takeFrame_nil hc] at h
      injection h with h
      exact .inr (.inl ⟨hf, rfl, h.symm⟩)
    | cons f rest =>
      rw [takeFrame_cons hc] at h
      cases hd : decode f with
      | command i =>
        simp only [hd] at h
        exact .inr (.inr (.inr ⟨hf, f, rest, i, rfl, hd, h⟩))
      | illegal why =>
        simp only [hd] at h
        injection h with h
        exact .inr (.inr (.inl ⟨hf, f, rest, why, rfl, hd, h.symm⟩))

end Sys2Proof.Machine
end

