-- ==== Sys2Proof/Laws/Hash.lean ====
section
/-! SUPPORT. The serializer and the parser, byte by byte and word by word. -/

namespace Sys2Proof.Machine

/-- A byte of a serialized state, by its position (R115). -/
theorem serialize_getElem (v : ChainState) (p : Nat) (h : p < 32) :
    (serialize v)[p] = (v[p / 4]).extractLsb' (24 - 8 * (p % 4)) 8 := by
  simp [serialize]

/-- A word of a parsed digest, by its index (R126). -/
theorem parse_getElem (d : Digest) (i : Nat) (h : i < 8) :
    (parse d)[i] = ofBE32 d[4 * i] d[4 * i + 1] d[4 * i + 2] d[4 * i + 3] := by
  simp [parse]

end Sys2Proof.Machine
end

