-- ==== Sys2Proof/Laws/PerInstr.lean ====
section
/-! SUPPORT. The shape of every command's encoding, one lemma per command. -/

namespace Sys2Proof.Laws.EncodingShape

open Sys2Proof Sys2Proof.Machine

/-- A well-formed command's word calls for exactly the command's payload (R48, R52), so its frame is
4 bytes and that payload (R46), and the first byte is the opcode (R49). -/
def Statement (i : Instr) : Prop :=
  i.wellFormed = true →
    need (commandWord i) = some (payload i).length ∧
    (encode i).length = 4 + (payload i).length ∧
    (encode i).head? = some (opcode i)

theorem init : Statement .init := fun _ => by decide

theorem ldst (d : Digest) (l0 : BitVec 64) : Statement (.ldst d l0) := fun _ => by
  have hp : (payload (.ldst d l0)).length = 40 := by simp [payload, toBE64]
  have hw : commandWord (.ldst d l0) = 0x02000000#32 := by simp [commandWord, opcode, countOf]
  exact ⟨by rw [hp, hw]; decide, encode_length _, by rw [encode, hw]; rfl⟩

theorem push (m : List Byte) : Statement (.push m) := fun hw => by
  have hm : m.length < 2 ^ 24 := by
    simp only [Instr.wellFormed, decide_eq_true_eq] at hw
    unfold maxPush at hw
    omega
  have hop : (commandWord (.push m)).extractLsb' 24 8 = 3#8 := by
    apply BitVec.eq_of_toNat_eq
    simp only [commandWord, opcode, countOf, BitVec.extractLsb'_toNat, BitVec.toNat_ofNat,
      Nat.shiftRight_eq_div_pow]
    omega
  have hn : ((commandWord (.push m)).extractLsb' 0 24).toNat = m.length := by
    simp only [commandWord, opcode, countOf, BitVec.extractLsb'_toNat, BitVec.toNat_ofNat,
      Nat.shiftRight_eq_div_pow]
    omega
  refine ⟨?_, encode_length _, ?_⟩
  · simp only [need, hop, hn, payload, if_pos]
  · simp only [encode, toBE32, List.cons_append, List.head?_cons, hop, opcode]

theorem final : Statement .final := fun _ => by decide

theorem rddg : Statement .rddg := fun _ => by decide

theorem cblk (blk : Block) : Statement (.cblk blk) := fun _ => by
  have hp : (payload (.cblk blk)).length = 64 := by simp [payload]
  have hw : commandWord (.cblk blk) = 0x06000000#32 := by simp [commandWord, opcode, countOf]
  exact ⟨by rw [hp, hw]; decide, encode_length _, by rw [encode, hw]; rfl⟩

theorem rdsr : Statement .rdsr := fun _ => by decide

theorem rdln : Statement .rdln := fun _ => by decide

end Sys2Proof.Laws.EncodingShape
end

