-- ==== Sys2Proof/Laws/Run.lean ====
section
/-! SUPPORT. Runs of the machine, one step at a time. -/

namespace Sys2Proof.Machine

/-- A run goes on after a step that answers a next state. -/
theorem run_succ_of_step (M : Host.Core) (k : Nat) {s t : M.State} (h : M.step s = .next t) :
    Host.Core.run M (k + 1) s = Host.Core.run M k t := by
  simp only [Host.Core.run, h]

@[simp] theorem run_zero (s : State) : Host.Core.run core 0 s = .next s := rfl

theorem run_succ (k : Nat) {s t : State} (h : step s = .next t) :
    Host.Core.run core (k + 1) s = Host.Core.run core k t :=
  run_succ_of_step core k h

/-- A run in two parts. -/
theorem run_add (M : Host.Core) (j k : Nat) {s t : M.State} (h : Host.Core.run M j s = .next t) :
    Host.Core.run M (j + k) s = Host.Core.run M k t := by
  induction j generalizing s with
  | zero =>
    cases h
    rw [Nat.zero_add]
  | succ j ih =>
    rw [Nat.succ_add]
    cases hs : M.step s with
    | next u =>
      rw [run_succ_of_step M j hs] at h
      rw [run_succ_of_step M (j + k) hs]
      exact ih h
    | fault r =>
      simp only [Host.Core.run, hs] at h
      cases h
    | refused r =>
      simp only [Host.Core.run, hs] at h
      cases h

end Sys2Proof.Machine
end

