-- ==== Sys2Proof/Laws/Session.lean ====
section
/-! SUPPORT. Runs as the host sees them, one event at a time, and how a digest comes to be delivered. -/

namespace Sys2Proof.Machine

@[simp] theorem play_nil (u : Session) : Session.play [] u = .next u := rfl

/-- A run goes on after an event that answers a next session. -/
theorem play_cons {u w : Session} {e : Event} (h : u.next e = .next w) (es : List Event) :
    Session.play (e :: es) u = Session.play es w := by
  simp only [Session.play, h]

/-- A run in two parts. -/
theorem play_append (es fs : List Event) {u w : Session} (h : Session.play es u = .next w) :
    Session.play (es ++ fs) u = Session.play fs w := by
  induction es generalizing u with
  | nil => cases h; rfl
  | cons e es ih =>
    rw [List.cons_append]
    simp only [Session.play] at h ⊢
    split at h
    · exact ih h
    · cases h
    · cases h

/-- Everything a step of the block does to a run. -/
theorem next_step {u : Session} {t : State} (h : step u.block = .next t) :
    u.next .step = .next { u with
      block := t
      digestAt :=
        if u.block.issuesDigest then u.digestAt ++ [u.got.length + u.block.respPort.length]
        else u.digestAt } := by
  simp only [Session.next, Session.stepBlock, h]

/-- Everything an event can do to a run. -/
theorem next_cases {u w : Session} {e : Event} (h : u.next e = .next w) :
    (∃ f, e = .deliver f ∧ w = { u with block := u.block.sendFrame f }) ∨
    (e = .read ∧ u.block.respPort = [] ∧ w = u) ∨
    (e = .read ∧ ∃ r rest, u.block.respPort = r :: rest ∧
      w = { u with block := { u.block with respPort := rest }, got := u.got ++ [r] }) ∨
    (e = .step ∧ ∃ t, step u.block = .next t ∧ w = { u with
      block := t
      digestAt :=
        if u.block.issuesDigest then u.digestAt ++ [u.got.length + u.block.respPort.length]
        else u.digestAt }) := by
  cases e with
  | deliver f =>
    cases h
    exact .inl ⟨f, rfl, rfl⟩
  | read =>
    injection h with h
    cases hp : u.block.respPort with
    | nil => exact .inr (.inl ⟨rfl, rfl, by simp [← h, Session.readOne, State.readResponse, hp]⟩)
    | cons r rest =>
      exact .inr (.inr (.inl ⟨rfl, r, rest, rfl, by
        simp [← h, Session.readOne, State.readResponse, hp]⟩))
  | step =>
    cases hs : step u.block with
    | next t =>
      rw [next_step hs] at h
      injection h with h
      exact .inr (.inr (.inr ⟨rfl, t, rfl, h.symm⟩))
    | fault r =>
      simp only [Session.next, Session.stepBlock, hs] at h
      cases h
    | refused r =>
      simp only [Session.next, Session.stepBlock, hs] at h
      cases h

/-- While `ERR = 1` no RDDG issues a digest (R142, R160). -/
theorem issuesDigest_of_err {s : State} (h : s.err = true) : s.issuesDigest = false := by
  simp [State.issuesDigest, h]

/-- The host reads every response that waits, oldest first (R33). -/
theorem play_reads (u : Session) :
    Session.play (List.replicate u.block.respPort.length .read) u = .next { u with
      block := { u.block with respPort := [] }
      got := u.got ++ u.block.respPort } := by
  obtain ⟨b, got, marks⟩ := u
  obtain ⟨rs, hrs⟩ : ∃ rs, b.respPort = rs := ⟨_, rfl⟩
  induction rs generalizing b got with
  | nil =>
    obtain ⟨⟩ := b
    cases hrs
    simp
  | cons r rest ih =>
    have hn : (Session.mk b got marks).next .read =
        .next ⟨{ b with respPort := rest }, got ++ [r], marks⟩ := by
      simp [Session.next, Session.readOne, State.readResponse, hrs]
    simp only [hrs, List.length_cons, List.replicate_succ]
    rw [play_cons hn]
    have := ih { b with respPort := rest } (got ++ [r]) rfl
    simpa using this

/-- An RDDG taken in phase FIN with `ERR = 0`, once the host has read up to its response, has delivered
the digest (R160). -/
theorem rddg_delivers {u : Session} {f : Frame} {rest : List Frame} (hr : u.block.rst = false)
    (he : u.block.err = false) (hp : u.block.phase = .fin) (hc : u.block.cmdPort = f :: rest)
    (hd : decode f = .command .rddg) :
    ∃ w, Session.play (.step :: List.replicate (u.block.respPort.length + 1) .read) u = .next w ∧
      DeliversDigest w (serialize u.block.v) := by
  have hi : u.block.issuesDigest = true := by
    simp [State.issuesDigest, hr, he, hp, takeFrame_cons hc, hd]
  have hs : step u.block =
      .next (({ u.block with cmdPort := rest } : State).respond (serialize u.block.v).toList) := by
    have hq : firstFault (checksOf .rddg { u.block with cmdPort := rest }) = none := by
      simp [checksOf, hp]
    have hx := exec_eq .rddg { u.block with cmdPort := rest }
    rw [if_neg (by simp), guarded_of_none (s := { u.block with cmdPort := rest }) he hq] at hx
    rw [step, if_neg (by simp [hr]), takeFrame_cons hc]
    simp only [hd]
    exact hx
  have hw := play_reads { u with
    block := ({ u.block with cmdPort := rest } : State).respond (serialize u.block.v).toList
    digestAt := u.digestAt ++ [u.got.length + u.block.respPort.length] }
  simp only [respond_respPort, List.length_append, List.length_singleton] at hw
  have hn := next_step hs
  rw [if_pos hi] at hn
  rw [play_cons hn]
  exact ⟨_, hw, u.got.length + u.block.respPort.length, by simp, by simp⟩

end Sys2Proof.Machine
end

