-- ==== Sys2Proof/Tests/Slice0.lean ====
section
/-! SUPPORT. Tests of the model against values of spec/95_test_vectors.md and words written out from
the encoding tables, and a witness for every statement that has hypotheses. -/

namespace Sys2Proof.Tests

open Sys2Proof Sys2Proof.Machine Sys2Proof.Claims

/-- A block with a computation open. -/
def opened (v : ChainState) (tail : List Byte) (len : BitVec 64) : State :=
  { State.reset with v := v, tail := tail, len := len, phase := .active }

/-- A block whose computation is closed. -/
def closed (v : ChainState) (len : BitVec 64) : State :=
  { State.reset with v := v, len := len, phase := .fin }

/-- A block that raised BAD_PHASE right after reset. -/
def faulted : State := { State.reset with err := true, errc := 2#4 }

/-- The next state of an outcome. -/
def after : Host.Outcome State Fault Refusal → Option State
  | .next t => some t
  | .fault _ => none
  | .refused _ => none

/-- `parse(sm3("Hello world"))` (95_test_vectors.md 1.3). -/
def helloWords : ChainState :=
  #v[0x6D442DCE#32, 0x810ED670#32, 0x8D4B0CCC#32, 0x04D1DFEB#32,
     0xCEFA6BB7#32, 0x8C381925#32, 0x1696CB64#32, 0xEEC670EF#32]

/-- The bytes of `sm3("Hello world")`. -/
def helloDigest : Digest :=
  #v[0x6d#8, 0x44#8, 0x2d#8, 0xce#8, 0x81#8, 0x0e#8, 0xd6#8, 0x70#8, 0x8d#8, 0x4b#8, 0x0c#8, 0xcc#8,
     0x04#8, 0xd1#8, 0xdf#8, 0xeb#8, 0xce#8, 0xfa#8, 0x6b#8, 0xb7#8, 0x8c#8, 0x38#8, 0x19#8, 0x25#8,
     0x16#8, 0x96#8, 0xcb#8, 0x64#8, 0xee#8, 0xc6#8, 0x70#8, 0xef#8]

/-- A block of zeros. -/
def zeroBlock : Block := Vector.replicate 64 0#8

/-- `"abcd"*16` without its last byte. -/
def abcd63 : List Byte := ((List.replicate 16 [0x61#8, 0x62#8, 0x63#8, 0x64#8]).flatten).take 63

/-- 63 bytes of "a". -/
def as63 : List Byte := List.replicate 63 0x61#8

/-! Ill-formed terms, for each check of `Instr.wellFormed`. -/

/-- R84: a PUSH of `2^24` bytes has no frame; of `2^24 - 1` bytes it has one. -/
theorem test_wellFormed_push :
    (Instr.push (List.replicate 16777216 0#8)).wellFormed = false ∧
    (Instr.push (List.replicate 16777215 0#8)).wellFormed = true := by
  simp only [Instr.wellFormed, List.length_replicate]
  decide

/-! Decoding: the frames of section 6.1, written out from R46 to R49. -/

theorem test_decode_init : decode [0x01#8, 0x00#8, 0x00#8, 0x00#8] = .command .init := by decide

/-- Section 7.3's LDST frame, 44 bytes. -/
theorem test_decode_ldst : decode
    ([0x02#8, 0x00#8, 0x00#8, 0x00#8,
      0x6d#8, 0x44#8, 0x2d#8, 0xce#8, 0x81#8, 0x0e#8, 0xd6#8, 0x70#8, 0x8d#8, 0x4b#8, 0x0c#8, 0xcc#8] ++
     [0x04#8, 0xd1#8, 0xdf#8, 0xeb#8, 0xce#8, 0xfa#8, 0x6b#8, 0xb7#8, 0x8c#8, 0x38#8, 0x19#8, 0x25#8,
      0x16#8, 0x96#8, 0xcb#8, 0x64#8, 0xee#8, 0xc6#8, 0x70#8, 0xef#8] ++
     [0x00#8, 0x00#8, 0x00#8, 0x00#8, 0x00#8, 0x00#8, 0x00#8, 0x40#8]) =
    .command (.ldst helloDigest 64#64) := by decide

theorem test_decode_push : decode [0x03#8, 0x00#8, 0x00#8, 0x03#8, 0x61#8, 0x62#8, 0x63#8] =
    .command (.push [0x61#8, 0x62#8, 0x63#8]) := by decide

theorem test_decode_final : decode [0x04#8, 0x00#8, 0x00#8, 0x00#8] = .command .final := by decide

theorem test_decode_rddg : decode [0x05#8, 0x00#8, 0x00#8, 0x00#8] = .command .rddg := by decide

theorem test_decode_cblk : decode
    ([0x06#8, 0x00#8, 0x00#8, 0x00#8, 0x61#8, 0x62#8, 0x63#8, 0x80#8] ++ List.replicate 59 0x00#8 ++
      [0x18#8]) = .command (.cblk abcBlock) := by decide

theorem test_decode_rdsr : decode [0x07#8, 0x00#8, 0x00#8, 0x00#8] = .command .rdsr := by decide

theorem test_decode_rdln : decode [0x08#8, 0x00#8, 0x00#8, 0x00#8] = .command .rdln := by decide

/-- A PUSH of 65536 bytes has the command word `03 01 00 00`; of `2^24 - 1` bytes, `03 ff ff ff`. -/
theorem test_count_field : countField 0x01#8 0x00#8 0x00#8 = 65536 ∧
    countField 0xff#8 0xff#8 0xff#8 = 16777215 := by decide

theorem test_illegal_words :
    decode [0x00#8, 0x00#8, 0x00#8, 0x00#8] = .illegal .unknownOpcode ∧
    decode [0x09#8, 0x00#8, 0x00#8, 0x00#8] = .illegal .unknownOpcode ∧
    decode [0xff#8, 0x00#8, 0x00#8, 0x00#8] = .illegal .unknownOpcode ∧
    decode [0x01#8, 0x00#8, 0x00#8, 0x01#8] = .illegal .nonzeroCount := by decide

theorem test_illegal_lengths :
    decode [0x04#8, 0x00#8, 0x00#8, 0x00#8, 0x00#8] = .illegal .wrongLength ∧
    decode [0x03#8, 0x00#8, 0x00#8, 0x03#8, 0x61#8, 0x62#8] = .illegal .wrongLength ∧
    decode [0x03#8, 0x00#8, 0x00#8, 0x01#8, 0x61#8, 0x62#8] = .illegal .wrongLength ∧
    decode [0x01#8, 0x00#8, 0x00#8] = .illegal .tooShort ∧
    decode [] = .illegal .tooShort ∧
    decode ([0x02#8, 0x00#8, 0x00#8, 0x00#8] ++ List.replicate 32 0x00#8) = .illegal .wrongLength ∧
    decode ([0x06#8, 0x00#8, 0x00#8, 0x00#8] ++ List.replicate 63 0x00#8) = .illegal .wrongLength := by
  decide

/-- The table's own numbering: opcode in bits 31:24, `n` in bits 23:0, payload bytes from bit 32 up. -/
theorem test_table_word :
    decodeTableWord 32 0x07000000 = some .rdsr ∧
    decodeTableWord 32 0x06000000 = some (.cblk zeroBlock) ∧
    decodeTableWord 32 0x03000002 = some (.push [0#8, 0#8]) ∧
    decodeTableWord 40 0x6103000001 = some (.push [0x61#8]) ∧
    decodeTableWord 32 0x09000000 = none := by decide

/-- The step right after reset runs the placed instruction: STATUS reads 0 (section 6.2). -/
theorem test_fetch_word :
    (after (step (State.reset.withFetchWord 32 0x07000000))).map (·.respPort) =
      some [[0#8, 0#8, 0#8, 0#8]] := by decide

/-! Commands, one step each. -/

/-- Section 7.3b: INIT from FIN. -/
theorem test_init : (after (exec .init (closed helloWords 69#64))).map
      (fun t => (t.v, t.len, t.phase, t.err)) =
    some (#v[0x7380166F#32, 0x4914B2B9#32, 0x172442D7#32, 0xDA8A0600#32,
             0xA96F30BC#32, 0x163138AA#32, 0xE38DEE4D#32, 0xB0FB0E4E#32], 0#64, .active, false) := by
  decide

/-- Section 7.4: blocked while `ERR = 1`. -/
theorem test_init_blocked : (after (exec .init faulted)).map (fun t => (t.phase, t.err, t.errc)) =
    some (.idle, true, 2#4) := by decide

/-- Section 7.3. -/
theorem test_ldst : (after (exec (.ldst helloDigest 64#64) State.reset)).map
      (fun t => (t.v, t.tail, t.len, t.phase)) = some (helloWords, [], 64#64, .active) := by decide

/-- Section 6.3: `2^63 + 1`, to which both BAD_OPERAND and LEN_OVERFLOW apply. -/
theorem test_ldst_priority :
    (after (exec (.ldst helloDigest 0x8000000000000001#64) State.reset)).map
      (fun t => (t.err, t.errc, t.len, t.phase)) = some (true, 3#4, 0#64, .idle) := by decide

set_option maxRecDepth 100000 in
/-- Section 7.2: byte 64 completes the block. -/
theorem test_push_completes : (after (exec (.push [0x64#8]) (opened iv abcd63 63#64))).map
      (fun t => (t.v, t.tail, t.len)) =
    some (#v[0x5950DE81#32, 0x468664EB#32, 0x42FD4C86#32, 0x1E7CA00A#32,
             0xC0A5910B#32, 0xAE9A55EA#32, 0x1ADB8D17#32, 0x763CA222#32], [], 64#64) := by decide

/-- Section 6.2's last line: one byte beyond `MAXLEN`. -/
theorem test_push_overflow :
    (after (exec (.push [0x78#8]) (opened iv as63 2305843009213693951#64))).map
      (fun t => (t.errc, t.status)) = some (5#4, 0x003F0505#32) := by decide

set_option maxRecDepth 100000 in
/-- Section 7.1: FINAL of "abc". -/
theorem test_final_abc :
    (after (exec .final (opened iv [0x61#8, 0x62#8, 0x63#8] 3#64))).map
      (fun t => (t.v, t.len, t.phase)) =
    some (#v[0x66C7F0F4#32, 0x62EEEDD9#32, 0xD1F2D46B#32, 0xDC10E4E2#32,
             0x4167C487#32, 0x5CF2F7A2#32, 0x297DA02B#32, 0x8F4BA8E0#32], 3#64, .fin) := by decide

set_option maxRecDepth 100000 in
/-- Section 7.6: `"a"*56`, two blocks. -/
theorem test_final_two_blocks :
    (after (exec .final (opened iv (List.replicate 56 0x61#8) 56#64))).map (fun t => (t.v, t.phase)) =
    some (#v[0xBA00EBED#32, 0xAAB54065#32, 0xA5FD4F9F#32, 0x56326016#32,
             0x203166BC#32, 0xEE3EED44#32, 0xEA868D59#32, 0xD67AA3C8#32], .fin) := by decide

/-- Section 7.3b: the chaining value as 32 bytes. -/
theorem test_rddg : (after (exec .rddg (opened helloWords [] 64#64))).map (·.respPort) =
    some [helloDigest.toList] := by decide

/-- Section 6.3: RDDG right after reset. -/
theorem test_rddg_idle : (after (exec .rddg State.reset)).map
      (fun t => (t.err, t.errc, t.respPort)) = some (true, 2#4, []) := by decide

set_option maxRecDepth 100000 in
/-- Section 7.5: CBLK does not count. -/
theorem test_cblk : (after (exec (.cblk abcBlock) (opened iv [] 0#64))).map (fun t => (t.v, t.len)) =
    some (#v[0x66C7F0F4#32, 0x62EEEDD9#32, 0xD1F2D46B#32, 0xDC10E4E2#32,
             0x4167C487#32, 0x5CF2F7A2#32, 0x297DA02B#32, 0x8F4BA8E0#32], 0#64) := by decide

/-- Section 7.5: `LEN = 1`. -/
theorem test_cblk_misaligned : (after (exec (.cblk abcBlock) (opened iv [0x61#8] 1#64))).map
      (fun t => (t.errc, t.status, t.len)) = some (4#4, 0x00010405#32, 1#64) := by decide

/-- Section 7.1: `INIT; PUSH "abc"`, then RDSR. -/
theorem test_rdsr : (after (exec .rdsr (opened iv [0x61#8, 0x62#8, 0x63#8] 3#64))).map (·.respPort) =
    some [[0x00#8, 0x03#8, 0x00#8, 0x01#8]] := by decide

/-- Section 7.4: RDSR answers while `ERR = 1`. -/
theorem test_rdsr_err : (after (exec .rdsr faulted)).map (·.respPort) =
    some [[0x00#8, 0x00#8, 0x02#8, 0x04#8]] := by decide

/-- Section 7.1. -/
theorem test_rdln : (after (exec .rdln (closed iv 3#64))).map (·.respPort) =
    some [[0#8, 0#8, 0#8, 0#8, 0#8, 0#8, 0#8, 3#8]] := by decide

/-- `MAXLEN = 2^61 - 1` as eight bytes, most significant first. -/
theorem test_rdln_max : (after (exec .rdln (opened iv as63 2305843009213693951#64))).map (·.respPort) =
    some [[0x1f#8, 0xff#8, 0xff#8, 0xff#8, 0xff#8, 0xff#8, 0xff#8, 0xff#8]] := by decide

/-- Section 6.3: a frame one byte short raises ILLEGAL_CMD before BAD_PHASE. -/
theorem test_illegal_before_phase :
    (after (step ((closed iv 0#64).sendFrame [0x03#8, 0x00#8, 0x00#8, 0x02#8, 0x61#8]))).map
      (fun t => (t.status, t.cmdPort)) = some (0x00000106#32, []) := by decide

/-- R156: a reset leaves STATUS 0 and discards the frame that waits. -/
theorem test_reset_discards :
    (after (step ((faulted.sendFrame [0x07#8, 0#8, 0#8, 0#8]).assertReset))).map
      (fun t => ((t.status, t.len), t.cmdPort, t.rst)) = some ((0#32, 0#64), [], false) := by decide

/-- Two instances: a step of the first leaves the second (R152). -/
theorem test_two_instances :
    ((match stepInstance (n := 2) 0 #v[State.reset.sendFrame [0x01#8, 0#8, 0#8, 0#8], faulted] with
      | .next sys => some (sys[0].phase, sys[1].phase, sys[1].err)
      | .fault _ => none
      | .refused _ => none) : Option (Phase × Phase × Bool)) = some (.active, .idle, true) := by decide

/-- A host reads the responses in the order they were produced (R33). -/
theorem test_read_response :
    (({ State.reset with respPort := [[1#8], [2#8]] } : State).readResponse).map
      (fun p => (p.1, p.2.respPort)) = some ([1#8], [[2#8]]) := by decide

/-- The session an outcome answers. -/
def sessionAfter : Host.Outcome Session Fault Refusal → Option Session
  | .next u => some u
  | .fault _ => none
  | .refused _ => none

/-- R160: an RDDG in FIN whose response the host then reads has delivered the digest; section 7.3b's
digest of "Hello world". -/
theorem test_run_delivers :
    (sessionAfter (Session.play [.deliver [0x05#8, 0#8, 0#8, 0#8], .step, .read]
      (Session.start (closed helloWords 11#64)))).map (fun u => (u.got, u.digestAt)) =
        some ([helloDigest.toList], [0]) := by decide

/-- R160: in ACTIVE the same 32 bytes are a chaining value, no digest. -/
theorem test_run_no_digest_in_active :
    (sessionAfter (Session.play [.deliver [0x05#8, 0#8, 0#8, 0#8], .step, .read]
      (Session.start (opened helloWords [] 64#64)))).map (fun u => (u.got, u.digestAt)) =
        some ([helloDigest.toList], []) := by decide

/-- R160: before the host has read the response, the run has not delivered. -/
theorem test_run_unread :
    (sessionAfter (Session.play [.deliver [0x05#8, 0#8, 0#8, 0#8], .step]
      (Session.start (closed helloWords 11#64)))).map (fun u => (u.got, u.digestAt)) =
        some ([], [0]) := by decide

/-- R160: a run of one frame after reset, which has ended. -/
theorem test_is_run : ∃ u, IsRun [[0x07#8, 0#8, 0#8, 0#8]] u ∧ Ended u.block :=
  ⟨_, ⟨State.reset, [.deliver [0x07#8, 0#8, 0#8, 0#8], .step], .inl rfl, rfl, rfl⟩, rfl⟩

/-! Pure functions: sections 3 to 5. -/

theorem test_rotl : rotl 0x12345678#32 4 = 0x23456781#32 ∧ rotl 0x12345678#32 19 = 0xB3C091A2#32 ∧
    rotl 0x80000000#32 1 = 0x00000001#32 ∧ rotl 0x12345678#32 0 = 0x12345678#32 ∧
    rotl 0x00000001#32 31 = 0x80000000#32 := by decide

theorem test_permutations : P0 0x61626380#32 = 0x62A5A186#32 ∧ P1 0x61626380#32 = 0x9092E200#32 ∧
    P0 0xDEADBEEF#32 = 0xF80FDC09#32 ∧ P1 0xDEADBEEF#32 = 0x76350766#32 := by decide

theorem test_boolean_functions :
    FF 15 0xF0F0F0F0#32 0xCCCCCCCC#32 0xAAAAAAAA#32 = 0x96969696#32 ∧
    FF 16 0xF0F0F0F0#32 0xCCCCCCCC#32 0xAAAAAAAA#32 = 0xE8E8E8E8#32 ∧
    GG 15 0xF0F0F0F0#32 0xCCCCCCCC#32 0xAAAAAAAA#32 = 0x96969696#32 ∧
    GG 16 0x12345678#32 0x9ABCDEF0#32 0x0F1E2D3C#32 = 0x1F3E7F74#32 ∧
    FF 16 0x12345678#32 0x9ABCDEF0#32 0x0F1E2D3C#32 = 0x1A3C5E78#32 := by decide

theorem test_round_constants : rotatedConst 15 = 0x228CBCE6#32 ∧ rotatedConst 16 = 0x9D8A7A87#32 ∧
    rotatedConst 33 = 0xF50F3B14#32 := by decide

set_option maxRecDepth 100000 in
/-- Section 4.2: schedule words of the block of "abc". -/
theorem test_schedule : (schedule abcBlock)[16] = 0x9092E200#32 ∧ (schedule abcBlock)[18] = 0x000C0606#32 ∧
    (schedule abcBlock)[67] = 0xB99C0545#32 ∧
    derivedWord (schedule abcBlock) 63 (by decide) = 0x49E260D5#32 := by decide

/-- Section 4.3, the row of round 0. -/
theorem test_round0 : cfRound 0 (startRegs iv) 0x61626380#32 0x61626380#32 =
    { a := 0xB9EDC12B#32, b := 0x7380166F#32, c := 0x29657292#32, d := 0x172442D7#32,
      e := 0xB2AD29F4#32, f := 0xA96F30BC#32, g := 0xC550B189#32, h := 0xE38DEE4D#32 } := by decide

set_option maxRecDepth 100000 in
/-- Section 4.4, vector 2: the zero block on the zero state. -/
theorem test_compress_zero : compress (Vector.replicate 8 0#32) zeroBlock =
    #v[0x2762550F#32, 0x18134933#32, 0xBA35CE4E#32, 0x0A757E65#32,
       0x8C0E7205#32, 0xFE9E4FF6#32, 0x5AC5C88B#32, 0xA3649AC2#32] := by decide

theorem test_padlen : [0, 11, 55, 56, 63, 64, 120, 1000].map padlen = [56, 45, 1, 64, 57, 56, 64, 16] := by
  decide

/-- Section 5.2. -/
theorem test_pad : pad [0x61#8] 1 = [0x61#8, 0x80#8] ++ List.replicate 61 0#8 ++ [0x08#8] ∧
    pad [] 0 = [0x80#8] ++ List.replicate 55 0#8 ++ List.replicate 8 0#8 := by decide

set_option maxRecDepth 100000 in
/-- Section 1.3: the forgery of the source's scenario, one compression. -/
theorem test_forge : forge helloDigest 11 (List.replicate 5 0x79#8) = serialize
    #v[0x39D5CD6C#32, 0x6293B8BD#32, 0x195287E8#32, 0xED35A7D0#32,
       0x6BCA7B46#32, 0xCD60ACA0#32, 0xCABEDCD6#32, 0x3C26A329#32] := by decide

/-! Witnesses: a concrete state and operands for the hypotheses of each statement, clause by clause. -/

/-- Reset with one frame on the command port. -/
def framed (f : Frame) : State := State.reset.sendFrame f

/-- A faulted block with one frame on the command port. -/
def faultedWith (f : Frame) : State := faulted.sendFrame f

theorem test_witness_DecodeOfEncode :
    (Instr.push []).wellFormed = true ∧ (Instr.push (List.replicate 16777215 0#8)).wellFormed = true ∧
    (Instr.cblk zeroBlock).wellFormed = true := by
  refine ⟨rfl, ?_, rfl⟩
  simp only [Instr.wellFormed, List.length_replicate]
  decide

theorem test_witness_EncodeOfDecode :
    decode [0x03#8, 0#8, 0#8, 1#8, 0x61#8] = .command (.push [0x61#8]) := by decide

/-- Three bytes; a FINAL with a payload byte. -/
theorem test_witness_WrongFrameLengthIsIllegal :
    let short : Frame := [0x01#8, 0#8, 0#8]
    let long : Frame := [0x04#8, 0#8, 0#8, 0#8, 0#8]
    ((framed short).rst = false ∧ (framed short).err = false ∧ (framed short).cmdPort = [short] ∧
      badLength short) ∧
    ((framed long).rst = false ∧ (framed long).err = false ∧ (framed long).cmdPort = [long] ∧
      badLength long) :=
  ⟨⟨rfl, rfl, rfl, .inl (by decide)⟩, ⟨rfl, rfl, rfl,
    .inr ⟨0x04#8, 0#8, 0#8, 0#8, [0#8], 0, rfl, by decide, by decide⟩⟩⟩

/-- Opcodes 0x00 and 0x09, and INIT with `n = 1`. -/
theorem test_witness_IllegalWordsRaise :
    let zero : Frame := [0#8, 0#8, 0#8, 0#8]
    let nine : Frame := [9#8, 0#8, 0#8, 0#8]
    let counted : Frame := [1#8, 0#8, 0#8, 1#8]
    ((framed zero).rst = false ∧ (framed zero).err = false ∧ (framed zero).cmdPort = [zero] ∧
      badWord zero) ∧
    ((framed nine).cmdPort = [nine] ∧ badWord nine) ∧
    ((framed counted).cmdPort = [counted] ∧ badWord counted) :=
  ⟨⟨rfl, rfl, rfl, 0#8, 0#8, 0#8, 0#8, [], rfl, .inl (by decide)⟩,
    ⟨rfl, 9#8, 0#8, 0#8, 0#8, [], rfl, .inl (by decide)⟩,
    ⟨rfl, 1#8, 0#8, 0#8, 1#8, [], rfl, .inr (by decide)⟩⟩

theorem test_witness_StepRunsDecodedCommand :
    let f : Frame := [0x07#8, 0#8, 0#8, 0#8]
    (framed f).rst = false ∧ (framed f).cmdPort = [f] ∧ decode f = .command .rdsr := by decide

theorem test_witness_WaitingKeepsState :
    State.reset.rst = false ∧ State.reset.cmdPort = [] := by decide

/-- A response; a fault raised; blocked. -/
theorem test_witness_ResponsesHaveFixedLength :
    (∃ t, exec .rdsr State.reset = .next t) ∧
    (∃ t, exec .final State.reset = .next t ∧ State.reset.err = false ∧ t.err = true) ∧
    (∃ t, exec .init faulted = .next t ∧ faulted.err = true ∧ Instr.init ≠ .rdsr ∧
      Instr.init ≠ .rdln) :=
  ⟨⟨_, rfl⟩, ⟨_, rfl, rfl, rfl⟩, ⟨_, rfl, rfl, by decide, by decide⟩⟩

/-- Reset asserted; a faulted block that waits. -/
theorem test_witness_ResetFromAnyState :
    (closed iv 3#64).assertReset.rst = true ∧
    (faulted.rst = false ∧ faulted.err = true ∧ step faulted = .next faulted) :=
  ⟨rfl, rfl, rfl, rfl⟩

theorem test_witness_ResetIsNotInit :
    State.reset.phase = .idle ∧ State.reset.err = false ∧
    (∃ t, exec .rdsr State.reset = .next t) ∧ Instr.rdsr ≠ .init ∧
    ∀ d l, Instr.rdsr ≠ .ldst d l :=
  ⟨rfl, rfl, ⟨_, rfl⟩, by decide, fun _ _ h => by cases h⟩

theorem test_witness_ResetValues :
    (64#64).toNat % 64 = 0 ∧ (64#64).toNat ≤ 2 ^ 61 - 1 := by decide

theorem test_witness_InitResult : faulted.err = true ∧ State.reset.err = false := by decide

/-- `L0` = 63 and 65; 2^61, the first multiple of 64 beyond `MAXLEN`; 2^61 - 64, the last within. -/
theorem test_witness_LdstResult :
    faulted.err = true ∧ State.reset.err = false ∧
    (63#64).toNat % 64 ≠ 0 ∧ (65#64).toNat % 64 ≠ 0 ∧
    ((0x2000000000000000#64).toNat % 64 = 0 ∧ 2 ^ 61 - 1 < (0x2000000000000000#64).toNat) ∧
    ((0x1FFFFFFFFFFFFFC0#64).toNat % 64 = 0 ∧ (0x1FFFFFFFFFFFFFC0#64).toNat ≤ 2 ^ 61 - 1) ∧
    ((0#64).toNat % 64 = 0 ∧ (0#64).toNat ≤ 2 ^ 61 - 1) := by decide

theorem test_witness_OpeningForgetsTheEarlierComputation :
    (opened helloWords [0x61#8] 65#64).err = false ∧
    (64#64).toNat % 64 = 0 ∧ (64#64).toNat ≤ 2 ^ 61 - 1 := by decide

/-- A payload a frame can carry; blocked; IDLE; one byte beyond `MAXLEN`; the byte that reaches it. -/
theorem test_witness_PushResult :
    ([] : List Byte).length ≤ 2 ^ 24 - 1 ∧
    faulted.err = true ∧ (State.reset.err = false ∧ State.reset.phase ≠ .active) ∧
    ((opened iv as63 0x1FFFFFFFFFFFFFFF#64).err = false ∧
      (opened iv as63 0x1FFFFFFFFFFFFFFF#64).phase = .active ∧
      2 ^ 61 - 1 < (opened iv as63 0x1FFFFFFFFFFFFFFF#64).len.toNat + [0x61#8].length) ∧
    ((opened iv (as63.drop 1) 0x1FFFFFFFFFFFFFFE#64).err = false ∧
      (opened iv (as63.drop 1) 0x1FFFFFFFFFFFFFFE#64).phase = .active ∧
      (opened iv (as63.drop 1) 0x1FFFFFFFFFFFFFFE#64).len.toNat + [0x61#8].length ≤ 2 ^ 61 - 1 ∧
      (opened iv (as63.drop 1) 0x1FFFFFFFFFFFFFFE#64).tail.length =
        (opened iv (as63.drop 1) 0x1FFFFFFFFFFFFFFE#64).len.toNat % 64) := by decide

/-- `r = 62`, the last byte that does not fill the buffer; `r = 63`. -/
theorem test_witness_AbsorbOneByte :
    ((opened iv (as63.drop 1) 62#64).err = false ∧ (opened iv (as63.drop 1) 62#64).phase = .active ∧
      (opened iv (as63.drop 1) 62#64).tail.length = (opened iv (as63.drop 1) 62#64).len.toNat % 64 ∧
      (opened iv (as63.drop 1) 62#64).len.toNat < 2 ^ 61 - 1 ∧
      (opened iv (as63.drop 1) 62#64).len.toNat % 64 < 63) ∧
    ((opened iv as63 63#64).err = false ∧ (opened iv as63 63#64).phase = .active ∧
      (opened iv as63 63#64).tail.length = (opened iv as63 63#64).len.toNat % 64 ∧
      (opened iv as63 63#64).len.toNat < 2 ^ 61 - 1 ∧
      (opened iv as63 63#64).len.toNat % 64 = 63 ∧
      (Vector.replicate 64 0x61#8 : Block).toList = (opened iv as63 63#64).tail ++ [0x61#8]) := by
  decide

theorem test_witness_PushSplitInvariance :
    (opened iv [] 0#64).err = false ∧ (opened iv [] 0#64).phase = .active ∧
    (opened iv [] 0#64).len.toNat + [0x61#8].length + [0x62#8, 0x63#8].length ≤ 2 ^ 61 - 1 ∧
    ∃ t, exec (.push [0x61#8]) (opened iv [] 0#64) = .next t :=
  ⟨rfl, rfl, by decide, _, rfl⟩

theorem test_witness_FinalResult :
    faulted.err = true ∧ (State.reset.err = false ∧ State.reset.phase ≠ .active) ∧
    ((closed iv 3#64).err = false ∧ (closed iv 3#64).phase ≠ .active) ∧
    ((opened iv [] 0#64).err = false ∧ (opened iv [] 0#64).phase = .active) := by decide

theorem test_witness_CblkResult :
    faulted.err = true ∧ (State.reset.err = false ∧ State.reset.phase ≠ .active) ∧
    ((opened iv as63 63#64).err = false ∧ (opened iv as63 63#64).phase = .active ∧
      (opened iv as63 63#64).len.toNat % 64 ≠ 0) ∧
    ((opened iv [] 64#64).err = false ∧ (opened iv [] 64#64).phase = .active ∧
      (opened iv [] 64#64).len.toNat % 64 = 0) := by decide

/-- The longest length a counted block still fits. -/
theorem test_witness_CblkIsPushWithoutCounting :
    (opened iv [] 0x1FFFFFFFFFFFFF80#64).err = false ∧
    (opened iv [] 0x1FFFFFFFFFFFFF80#64).phase = .active ∧
    (opened iv [] 0x1FFFFFFFFFFFFF80#64).len.toNat % 64 = 0 ∧
    (opened iv [] 0x1FFFFFFFFFFFFF80#64).tail = [] ∧
    (opened iv [] 0x1FFFFFFFFFFFFF80#64).len.toNat + 64 ≤ 2 ^ 61 - 1 := by decide

theorem test_witness_RddgResult :
    faulted.err = true ∧ (State.reset.err = false ∧ State.reset.phase = .idle) ∧
    ((opened iv [] 0#64).err = false ∧ (opened iv [] 0#64).phase ≠ .idle) ∧
    ((closed iv 0#64).err = false ∧ (closed iv 0#64).phase ≠ .idle) := by decide

/-- A response that waits to be read. -/
theorem test_witness_StatusFields : ∃ r t,
    (({ faulted with respPort := [[1#8]] } : State).readResponse) = some (r, t) :=
  ⟨_, _, rfl⟩

theorem test_witness_ReadsAreIdempotent :
    (closed iv 3#64).err = false ∧ (closed iv 3#64).phase ≠ .idle := by decide

/-- Blocked FINAL and blocked illegal frame; illegal; wrong phase; and the operand checks. -/
theorem test_witness_FaultPriority :
    let final : Frame := [0x04#8, 0#8, 0#8, 0#8]
    let bad : Frame := [0x09#8, 0#8, 0#8, 0#8]
    ((faultedWith final).err = true ∧ decode final = .command .final ∧ Instr.final ≠ .rdsr ∧
      Instr.final ≠ .rdln) ∧
    ((framed bad).rst = false ∧ (framed bad).cmdPort = [bad] ∧ (framed bad).err = false ∧
      decode bad = .illegal .unknownOpcode) ∧
    ((framed final).err = false ∧ acceptedIn .final (framed final).phase = false) ∧
    decode ([0x02#8, 0#8, 0#8, 0#8] ++ List.replicate 39 0#8 ++ [0x01#8]) =
      .command (.ldst (Vector.replicate 32 0#8) 1#64) ∧
    decode ([0x02#8, 0#8, 0#8, 0#8] ++ List.replicate 32 0#8 ++ [0x20#8] ++ List.replicate 7 0#8) =
      .command (.ldst (Vector.replicate 32 0#8) 0x2000000000000000#64) ∧
    (decode ([0x06#8, 0#8, 0#8, 0#8] ++ List.replicate 64 0#8) = .command (.cblk zeroBlock) ∧
      (opened iv [0x61#8] 1#64).len.toNat % 64 ≠ 0) ∧
    (decode [0x03#8, 0#8, 0#8, 1#8, 0x61#8] = .command (.push [0x61#8]) ∧
      2 ^ 61 - 1 < (opened iv as63 0x1FFFFFFFFFFFFFFF#64).len.toNat + [0x61#8].length) := by decide

/-- PUSH in IDLE and in FIN; RDDG in IDLE; RDDG in ACTIVE; an accepted LDST that raises a fault. -/
theorem test_witness_PhaseTable :
    State.reset.err = false ∧ acceptedIn (.push []) .idle = false ∧
    acceptedIn (.push []) .fin = false ∧ acceptedIn .rddg .idle = false ∧
    acceptedIn .rddg .active = true ∧
    (after (exec (.ldst helloDigest 65#64) State.reset)).map (·.err) = some true := by decide

theorem test_witness_FaultsArePrecise :
    State.reset.err = false ∧ ∃ t, exec .final State.reset = .next t ∧ t.err = true :=
  ⟨rfl, _, rfl, rfl⟩

theorem test_witness_BlockedWhileErr :
    let bad : Frame := [0#8, 0#8, 0#8, 0#8]
    (faultedWith bad).err = true ∧ Instr.init ≠ .rdsr ∧ Instr.init ≠ .rdln ∧
    (faultedWith bad).rst = false ∧ (faultedWith bad).cmdPort = [bad] ∧
    decode bad = .illegal .unknownOpcode := by decide

theorem test_witness_OnlyResetClearsErr :
    (faulted.assertReset.rst = true ∧ ∃ t, step faulted.assertReset = .next t) ∧
    (faultedWith [0x01#8, 0#8, 0#8, 0#8]).rst = false ∧
    (faultedWith [0x01#8, 0#8, 0#8, 0#8]).err = true ∧
    ∃ t, step (faultedWith [0x01#8, 0#8, 0#8, 0#8]) = .next t :=
  ⟨⟨rfl, _, rfl⟩, rfl, rfl, _, rfl⟩

theorem test_witness_FaultedNeverDelivers :
    (faultedWith [0x07#8, 0#8, 0#8, 0#8]).rst = false ∧
    (faultedWith [0x07#8, 0#8, 0#8, 0#8]).err = true ∧
    (∃ t, Host.Core.run core 2 (faultedWith [0x07#8, 0#8, 0#8, 0#8]) = .next t) ∧
    ∃ w, Session.play [.deliver [0x05#8, 0#8, 0#8, 0#8], .step, .read]
      (Session.start (faultedWith [0x07#8, 0#8, 0#8, 0#8])) = .next w :=
  ⟨rfl, rfl, ⟨_, rfl⟩, _, rfl⟩

/-- An effect; a fault; FINAL with 55 and with 56 bytes in the buffer. -/
theorem test_witness_WritersOfV :
    Inv (opened iv [0x61#8] 1#64) ∧
    ((after (exec .init (opened iv [0x61#8] 1#64))).map (·.err) = some false) ∧
    ((after (exec (.cblk abcBlock) (opened iv [0x61#8] 1#64))).map (·.err) = some true) ∧
    (Inv (opened iv (List.replicate 55 0#8) 55#64) ∧
      (after (exec .final (opened iv (List.replicate 55 0#8) 55#64))).map (·.err) = some false) ∧
    (Inv (opened iv (List.replicate 56 0#8) 56#64) ∧
      (after (exec .final (opened iv (List.replicate 56 0#8) 56#64))).map (·.err) = some false) := by
  decide

/-- An effect; a fault; the bound at `MAXLEN`. -/
theorem test_witness_WritersOfLen :
    ((after (exec (.push [0x61#8]) (opened iv [] 0#64))).map (·.err) = some false) ∧
    ((after (exec .final State.reset)).map (·.err) = some true) ∧
    (opened iv as63 0x1FFFFFFFFFFFFFFF#64).len.toNat ≤ 2 ^ 61 - 1 := by decide

/-- Reset; INIT and LDST; FINAL in ACTIVE and in FIN; a fault; a read. -/
theorem test_witness_PhaseTransitions :
    (State.reset.assertReset.rst = true ∧
      (after (step State.reset.assertReset)).map (·.err) = some false) ∧
    (State.reset.err = false ∧ (after (exec .init State.reset)).map (·.err) = some false) ∧
    ((after (exec (.ldst helloDigest 64#64) State.reset)).map (·.err) = some false) ∧
    ((after (exec .final (opened iv [] 0#64))).map (·.err) = some false) ∧
    ((closed iv 0#64).err = false ∧
      (after (exec .final (closed iv 0#64))).map (·.err) = some true) ∧
    (after (exec .rdsr State.reset)).map (·.err) = some false := by decide

/-- The invariant in each phase and with a fault recorded. -/
theorem test_witness_InvKeptByStep :
    Inv State.reset ∧ Inv (opened iv as63 63#64) ∧ Inv (closed iv 69#64) ∧ Inv faulted ∧
    Inv (framed [0x01#8, 0#8, 0#8, 0#8]) ∧ ∃ t, step (framed [0x01#8, 0#8, 0#8, 0#8]) = .next t := by
  refine ⟨?_, by decide, by decide, ?_, ?_, _, rfl⟩ <;> decide

theorem test_witness_PadLengthRule : 55 % 64 < 56 ∧ 56 ≤ 56 % 64 ∧ 119 % 64 = 55 ∧ 120 % 64 = 56 := by
  decide

theorem test_witness_PadShape : ([0x61#8] : List Byte).length < 2 ∧
    2 < ([0x61#8] : List Byte).length + padlen 1 := by decide

/-- A tail of 5 bytes padded for 69, the forger's case. -/
theorem test_witness_PadAlignment :
    (List.replicate 5 0x79#8).length % 64 = 69 % 64 ∧ 2305843009213693951 < 2 ^ 61 := by decide

theorem test_witness_BlocksOfByteString : 0 < (List.replicate 65 0#8).length / 64 := by decide

theorem test_witness_PadInjective :
    ([0x61#8] : List Byte).length < 2 ^ 61 ∧ pad [0x61#8] ([0x61#8] : List Byte).length =
      pad [0x61#8] ([0x61#8] : List Byte).length := by decide

/-- `r = 55`, one block; `r = 56` and `r = 63`, two. -/
theorem test_witness_TailBlocksLayout :
    (List.replicate 55 0#8).length = 119 % 64 ∧ 119 % 64 < 56 ∧
    (List.replicate 56 0#8).length = 56 % 64 ∧ 56 ≤ 56 % 64 ∧
    as63.length = 63 % 64 ∧ 56 ≤ 63 % 64 := by decide

theorem test_witness_PadDecomposition : (List.replicate 65 0#8).length % 64 = 65 % 64 := by decide

/-- The numeric ranges of the word and schedule statements are not empty at their ends. -/
theorem test_witness_ranges : (0 < 32 ∧ 31 < 32) ∧ (15 < 16 ∧ 16 ≤ 16) ∧ (16 ≤ 67 ∧ 67 < 68) ∧
    63 < 64 := by decide

/-- The hypotheses of the two sequence statements, a prefix near `MAXLEN` included. -/
theorem test_witness_sequences :
    State.reset.err = false ∧ State.reset.rst = false ∧
    ([] : List Byte).length ≤ 2 ^ 61 - 1 ∧ prefixlen 11 + (List.replicate 5 0x79#8).length ≤ 2 ^ 61 - 1 ∧
    prefixlen 2305843009213693879 + ([] : List Byte).length ≤ 2 ^ 61 - 1 := by decide

end Sys2Proof.Tests
end

section
/-! PROOF SUPPORT. The three outcomes of a command by their conditions, when its checks pass, and what each
outcome does to the architectural state. -/

namespace Sys2Proof.Machine

theorem maxLen_eq : maxLen = 2 ^ 61 - 1 := by decide

/-! When the checks of a command pass or fail. -/

@[simp] theorem firstFault_cons_eq_none (b : Bool) (c : Cause) (rest : List (Bool × Cause)) :
    firstFault ((b, c) :: rest) = none ↔ b = false ∧ firstFault rest = none := by
  cases b <;> simp

/-- LDST passes its checks exactly when its operand is a whole number of blocks within `MAXLEN` (R128). -/
theorem ldst_passes_iff (d : Digest) (l0 : BitVec 64) (s : State) :
    firstFault (checksOf (.ldst d l0) s) = none ↔ l0.toNat % 64 = 0 ∧ l0.toNat ≤ maxLen := by
  simp [checksOf]

/-- PUSH passes its checks exactly in ACTIVE and when the new length is within `MAXLEN` (R84). -/
theorem push_passes_iff (m : List Byte) (s : State) :
    firstFault (checksOf (.push m) s) = none ↔
      s.phase = .active ∧ s.len.toNat + m.length ≤ maxLen := by
  simp [checksOf, State.notActive]

/-- FINAL passes its check exactly in ACTIVE (R86). -/
theorem final_passes_iff (s : State) :
    firstFault (checksOf .final s) = none ↔ s.phase = .active := by
  simp [checksOf, State.notActive]

/-- In IDLE the commands that read `V` or `BLK` fail the phase check, which is their first (R138, R139). -/
theorem firstFault_of_idle {i : Instr} {s : State} (hp : s.phase = .idle)
    (hi : i = .rddg ∨ i = .final ∨ (∃ m, i = .push m) ∨ ∃ b, i = .cblk b) :
    firstFault (checksOf i s) = some .badPhase := by
  obtain rfl | rfl | ⟨m, rfl⟩ | ⟨b, rfl⟩ := hi <;> simp [checksOf, State.notActive, hp]

/-! The outcomes of a command. -/

/-- A command that is not blocked and passes its checks has its whole effect. -/
theorem exec_of_passes {i : Instr} {s : State} (he : s.err = false)
    (hc : firstFault (checksOf i s) = none) : exec i s = .next (effect i s) := by
  rw [exec_eq, guarded_of_none he hc, ite_self]

/-- A command that is not blocked and fails a check raises the first one that fails (R139, R141). -/
theorem exec_of_fails {i : Instr} {s : State} {c : Cause} (he : s.err = false)
    (hc : firstFault (checksOf i s) = some c) : exec i s = .next (s.raise c) := by
  have hi : ¬ (i = .rdsr ∨ i = .rdln) := by rintro (rfl | rfl) <;> cases hc
  rw [exec_eq, if_neg hi, guarded_of_some he hc]

/-- No command's effect writes `ERR` (R141, R145). -/
@[simp] theorem effect_err (i : Instr) (s : State) : (effect i s).err = s.err := by
  cases i <;> simp [effect]

/-- A command that ends with `ERR = 0` was not blocked, passed its checks and had its effect. -/
theorem effect_of_err_false {i : Instr} {s t : State} (h : exec i s = .next t)
    (ht : t.err = false) : firstFault (checksOf i s) = none ∧ t = effect i s := by
  obtain ⟨he, rfl⟩ | ⟨-, c, -, rfl⟩ | ⟨-, hc, rfl⟩ := exec_cases h
  · rw [he] at ht; cases ht
  · cases ht
  · exact ⟨hc, rfl⟩

/-- A blocked or faulting command leaves `V`, the buffer, `LEN` and the phase; RDSR and RDLN, which answer
even then, do too (R141, R142). -/
theorem exec_frame_of_err {i : Instr} {s t : State} (h : exec i s = .next t)
    (he : s.err = true ∨ t.err = true) :
    t.v = s.v ∧ t.tail = s.tail ∧ t.len = s.len ∧ t.phase = s.phase := by
  obtain ⟨-, rfl⟩ | ⟨-, c, -, rfl⟩ | ⟨hr, -, rfl⟩ := exec_cases h
  · simp
  · simp
  · have hs : s.err = true := by simpa using he
    obtain hf | rfl | rfl := hr
    · rw [hs] at hf; cases hf
    · simp [effect]
    · simp [effect]

/-! `LEN` and the phase after a command. -/

/-- PUSH adds its byte count to `LEN` as numbers: its length check keeps the sum below `2^64` (R84). -/
theorem absorbAll_len_toNat {s : State} {m : List Byte} (h : s.len.toNat + m.length ≤ maxLen) :
    (s.absorbAll m).len.toNat = s.len.toNat + m.length := by
  rw [maxLen_eq] at h
  rw [absorbAll_len, BitVec.toNat_add, BitVec.toNat_ofNat]
  omega

/-- A command that passes its checks does not take `LEN` above `MAXLEN` (R19). -/
theorem effect_len_le {i : Instr} {s : State} (hc : firstFault (checksOf i s) = none)
    (hl : s.len.toNat ≤ maxLen) : (effect i s).len.toNat ≤ maxLen := by
  cases i with
  | init => exact Nat.zero_le _
  | ldst d l0 => exact ((ldst_passes_iff d l0 s).mp hc).2
  | push m =>
    have hm := ((push_passes_iff m s).mp hc).2
    exact (absorbAll_len_toNat hm).trans_le hm
  | final | rddg | cblk blk | rdsr | rdln => exact hl

/-- Only INIT, LDST and FINAL write the phase (R22). -/
theorem effect_phase {i : Instr} (s : State) (hi : i ≠ .init) (hl : ∀ d l, i ≠ .ldst d l)
    (hf : i ≠ .final) : (effect i s).phase = s.phase := by
  cases i with
  | init => exact absurd rfl hi
  | ldst d l0 => exact absurd rfl (hl d l0)
  | final => exact absurd rfl hf
  | push m => exact absorbAll_phase s m
  | rddg | cblk blk | rdsr | rdln => rfl

/-- A pending reset is performed before anything else (R156). -/
theorem step_of_rst {s : State} (h : s.rst = true) : step s = .next s.applyReset := by
  rw [step, if_pos h]

/-! The view STATUS, and the host's read of a response. -/

theorem Phase.code_le (p : Phase) : p.code ≤ 2 := by
  cases p <;> decide

/-- The formula of STATUS fits its 32 bits (R23). -/
theorem status_toNat (s : State) : s.status.toNat =
    s.phase.code + 4 * s.err.toNat + 256 * s.errc.toNat + 65536 * (s.len.toNat % 64) := by
  have hp := s.phase.code_le
  have he := s.err.toNat_le
  have hc := s.errc.isLt
  rw [State.status, BitVec.toNat_ofNat]
  omega

/-- A bit field of STATUS, as the number it denotes. -/
theorem status_field_toNat (s : State) (k n : Nat) : (s.status.extractLsb' k n).toNat =
    (s.phase.code + 4 * s.err.toNat + 256 * s.errc.toNat + 65536 * (s.len.toNat % 64)) / 2 ^ k
      % 2 ^ n := by
  rw [BitVec.extractLsb'_toNat, status_toNat, Nat.shiftRight_eq_div_pow]

/-- `ERR` is bit 2 of STATUS (R23). -/
theorem status_bit_err (s : State) : s.status.getLsbD 2 = s.err := by
  have hp := s.phase.code_le
  rw [BitVec.getLsbD, Nat.testBit_eq_decide_div_mod_eq, status_toNat]
  cases s.err <;> simp <;> omega

/-- Reading a response takes the oldest one off the port and changes nothing else (R33). -/
theorem readResponse_eq_some {s t : State} {r : List Byte} (h : s.readResponse = some (r, t)) :
    ∃ rest, s.respPort = r :: rest ∧ t = { s with respPort := rest } := by
  cases hp : s.respPort with
  | nil => simp [State.readResponse, hp] at h
  | cons r' rest =>
    obtain ⟨rfl, rfl⟩ : r' = r ∧ { s with respPort := rest } = t := by
      simpa [State.readResponse, hp] using h
    exact ⟨rest, rfl, rfl⟩

end Sys2Proof.Machine
end

section
/-! PROOFS. The statements about the architectural state: STATUS, the writers of `LEN`, the phase, reset. -/

namespace Sys2Proof.Machine

/-- Settles O25: every field is read off the one sum of R23, whose summands do not overlap. -/
theorem statusFields : Obligations.StatusFields := by
  intro s
  have hp := s.phase.code_le
  have he := s.err.toNat_le
  have hc := s.errc.isLt
  refine ⟨status_toNat s, ?phase, status_bit_err s, ?reserved7_3, ?errc, ?reserved15_12, ?len,
    ?reserved31_22, fun _ => rfl, ?read⟩
  case phase =>
    rw [status_field_toNat]
    show _ = s.phase.code
    omega
  case read =>
    intro r t h
    obtain ⟨rest, -, rfl⟩ := readResponse_eq_some h
    rfl
  case len =>
    apply BitVec.eq_of_toNat_eq
    rw [status_field_toNat, BitVec.extractLsb'_toNat]
    omega
  case errc =>
    apply BitVec.eq_of_toNat_eq
    rw [status_field_toNat]
    omega
  case reserved7_3 | reserved15_12 | reserved31_22 =>
    apply BitVec.eq_of_toNat_eq
    rw [status_field_toNat, BitVec.toNat_ofNat]
    omega

/-- Settles O35: a command that ends with `ERR = 0` had its effect; any other leaves `LEN`. -/
theorem writersOfLen : Obligations.WritersOfLen := by
  intro i s t h
  refine ⟨fun he => ?_, fun ht => ?_, fun hl => ?_⟩
  · obtain ⟨-, -, hlen, -⟩ := exec_frame_of_err h he
    exact hlen
  · obtain ⟨hc, rfl⟩ := effect_of_err_false h ht
    cases i with
    | push m => exact absorbAll_len_toNat ((push_passes_iff m s).mp hc).2
    | init | ldst d l0 | final | rddg | cblk blk | rdsr | rdln => rfl
  · rw [← maxLen_eq] at hl ⊢
    cases ht : t.err with
    | true =>
      obtain ⟨-, -, hlen, -⟩ := exec_frame_of_err h (.inr ht)
      exact hlen ▸ hl
    | false =>
      obtain ⟨hc, rfl⟩ := effect_of_err_false h ht
      exact effect_len_le hc hl

/-- Settles O36: the outcomes of a command, each with what it does to the phase. -/
theorem phaseTransitions : Obligations.PhaseTransitions := by
  refine ⟨⟨rfl, rfl, rfl⟩, ?reset, ?init, ?ldst, ?final, ?err, ?other⟩
  case reset =>
    intro s t hr h
    cases (step_of_rst hr).symm.trans h
    rfl
  case init =>
    intro s t he h
    cases (exec_of_passes (i := .init) he rfl).symm.trans h
    rfl
  case ldst =>
    intro s t d l0 h ht
    obtain ⟨-, rfl⟩ := effect_of_err_false h ht
    rfl
  case final =>
    intro s t he h
    by_cases hp : s.phase = .active
    · cases (exec_of_passes he ((final_passes_iff s).mpr hp)).symm.trans h
      rw [if_pos hp]
      rfl
    · obtain ⟨-, rfl⟩ | ⟨-, c, -, rfl⟩ | ⟨-, hc, -⟩ := exec_cases h
      · rw [if_neg hp]
      · rw [if_neg hp, raise_phase]
      · exact absurd ((final_passes_iff s).mp hc) hp
  case err =>
    intro s t i h he
    obtain ⟨-, -, -, hphase⟩ := exec_frame_of_err h he
    exact hphase
  case other =>
    intro s t i h hi hl hf
    obtain ⟨-, rfl⟩ | ⟨-, c, -, rfl⟩ | ⟨-, -, rfl⟩ := exec_cases h
    · rfl
    · exact raise_phase s c
    · exact effect_phase s hi hl hf

/-- Settles O10: in IDLE the readers of `V` and `BLK` fail their phase check, and the commands that open a
computation overwrite both. -/
theorem resetValues : Obligations.ResetValues := by
  refine ⟨rfl, rfl, rfl, rfl, rfl, fun v tl i => ⟨fun hi => ?_, ?_⟩⟩
  · exact exec_of_fails rfl (firstFault_of_idle rfl hi)
  · rintro (rfl | ⟨d, l0, rfl, hblocks, hmax⟩)
    · rfl
    · have hc (s : State) : firstFault (checksOf (.ldst d l0) s) = none :=
        (ldst_passes_iff d l0 s).mpr ⟨hblocks, hmax⟩
      rw [exec_of_passes rfl (hc _), exec_of_passes rfl (hc _)]
      rfl

end Sys2Proof.Machine
end

section
/-! PROOFS. The statement about the response port: what a command may put on it. -/

namespace Sys2Proof.Machine

/-- A command's effect answers only for RDDG, RDSR and RDLN, each with one response of its own length
(R33). -/
theorem effect_respPort_cases (i : Instr) (s : State) :
    (effect i s).respPort = s.respPort ∨
      ∃ r, (effect i s).respPort = s.respPort ++ [r] ∧
        ((i = .rddg ∧ r.length = 32) ∨ (i = .rdsr ∧ r.length = 4) ∨ (i = .rdln ∧ r.length = 8)) := by
  cases i with
  | init => exact .inl (openWith_respPort s iv 0#64)
  | ldst d l0 => exact .inl (openWith_respPort s (parse d) l0)
  | push m => exact .inl (absorbAll_respPort s m)
  | final => exact .inl (finish_respPort s)
  | cblk blk => exact .inl (compressBlock_respPort s blk)
  | rddg => exact .inr ⟨_, respond_respPort s _, .inl ⟨rfl, Vector.length_toList⟩⟩
  | rdsr => exact .inr ⟨_, respond_respPort s _, .inr (.inl ⟨rfl, toBE32_length _⟩)⟩
  | rdln => exact .inr ⟨_, respond_respPort s _, .inr (.inr ⟨rfl, toBE64_length _⟩)⟩

/-- Settles O9: a blocked or faulting command leaves the response port, and one that has its effect
neither raises a fault nor, unless it is RDSR or RDLN, starts with `ERR = 1`. -/
theorem responsesHaveFixedLength : Obligations.ResponsesHaveFixedLength := by
  intro i s t h
  obtain ⟨-, rfl⟩ | ⟨-, c, -, rfl⟩ | ⟨hr, -, rfl⟩ := exec_cases h
  · exact ⟨.inl rfl, fun _ _ => rfl, fun _ _ _ => rfl⟩
  · have hport := raise_respPort s c
    exact ⟨.inl hport, fun _ _ => hport, fun _ _ _ => hport⟩
  · refine ⟨effect_respPort_cases i s, fun he ht => ?_, fun he hs hl => ?_⟩
    · rw [effect_err, he] at ht
      cases ht
    · obtain hf | hi | hi := hr
      · rw [he] at hf
        cases hf
      · exact absurd hi hs
      · exact absurd hi hl

end Sys2Proof.Machine
end

section
/-! PROOFS. The statements about frames that are no command: a frame decodes to a command only when its
payload is as long as its word calls for, so a malformed frame is `Illegal` and its step raises
`ILLEGAL_CMD`. -/

namespace Sys2Proof.Machine

open Sys2Proof.Claims

/-! The fields of a command word, and the words that are no command's. -/

/-- The opcode of a frame's word is the frame's first byte (R46, R47). -/
theorem ofBE32_opcode (b0 b1 b2 b3 : Byte) : (ofBE32 b0 b1 b2 b3).extractLsb' 24 8 = b0 :=
  (List.cons.inj (toBE32_ofBE32 b0 b1 b2 b3)).1

/-- The `n` field of a frame's word is the number its next three bytes denote (R47). -/
theorem ofBE32_count (b0 b1 b2 b3 : Byte) :
    ((ofBE32 b0 b1 b2 b3).extractLsb' 0 24).toNat = countField b1 b2 b3 := by
  have hlt := countField_lt b1 b2 b3
  rw [BitVec.extractLsb'_toNat, ofBE32_toNat, Nat.shiftRight_zero]
  unfold countField at hlt ⊢
  omega

/-- The payload length a frame's word calls for, by the frame's first four bytes (R48, R52). -/
theorem need_ofBE32 (b0 b1 b2 b3 : Byte) : need (ofBE32 b0 b1 b2 b3) =
    if b0 = 0x03#8 then some (countField b1 b2 b3)
    else if countField b1 b2 b3 ≠ 0 then none
    else if b0 = 0x02#8 then some 40
    else if b0 = 0x06#8 then some 64
    else if b0 = 0x01#8 ∨ b0 = 0x04#8 ∨ b0 = 0x05#8 ∨ b0 = 0x07#8 ∨ b0 = 0x08#8 then some 0
    else none := by
  simp only [need, ofBE32_opcode, ofBE32_count]

/-- A word with an opcode outside `0x01..0x08` is no command's (R51 a). -/
theorem need_of_unknown_opcode {b0 : Byte} (h : b0.toNat = 0 ∨ 9 ≤ b0.toNat) (b1 b2 b3 : Byte) :
    need (ofBE32 b0 b1 b2 b3) = none := by
  have hne (k : Byte) (hk : 1 ≤ k.toNat ∧ k.toNat ≤ 8) : b0 ≠ k := by
    rintro rfl
    omega
  simp [need_ofBE32, hne]

/-- A word with a nonzero `n` and an opcode other than PUSH's is no command's (R51 b). -/
theorem need_of_nonzero_count {b0 b1 b2 b3 : Byte} (h : b0 ≠ 3#8) (hn : countField b1 b2 b3 ≠ 0) :
    need (ofBE32 b0 b1 b2 b3) = none := by
  rw [need_ofBE32, if_neg h, if_pos hn]

/-! What decodes has the length its word calls for. -/

theorem length_of_decodeBare {i j : Instr} {p : List Byte} (h : decodeBare j p = .command i) :
    p.length = 0 := by
  by_contra hp
  simp [decodeBare, hp] at h

theorem length_of_decodeLdst {i : Instr} {p : List Byte} (h : decodeLdst p = .command i) :
    p.length = 40 := by
  by_contra hp
  simp [decodeLdst, hp] at h

theorem length_of_decodeCblk {i : Instr} {p : List Byte} (h : decodeCblk p = .command i) :
    p.length = 64 := by
  by_contra hp
  simp [decodeCblk, hp] at h

theorem length_of_decodePush {i : Instr} {n : Nat} {p : List Byte}
    (h : decodePush n p = .command i) : p.length = n := by
  by_contra hp
  simp [decodePush, hp] at h

/-- A frame that decodes has the payload length of its word's command: the tests of R54, in order, are
those of R52. -/
theorem need_of_decode {b0 b1 b2 b3 : Byte} {p : List Byte} {i : Instr}
    (h : decode (b0 :: b1 :: b2 :: b3 :: p) = .command i) :
    need (ofBE32 b0 b1 b2 b3) = some p.length := by
  simp only [decode] at h
  split_ifs at h with hpush hcount hinit hldst hfinal hrddg hcblk hrdsr hrdln
  · simp [need_ofBE32, hpush, length_of_decodePush h]
  · simp [need_ofBE32, hinit, hcount, length_of_decodeBare h]
  · simp [need_ofBE32, hldst, hcount, length_of_decodeLdst h]
  · simp [need_ofBE32, hfinal, hcount, length_of_decodeBare h]
  · simp [need_ofBE32, hrddg, hcount, length_of_decodeBare h]
  · simp [need_ofBE32, hcblk, hcount, length_of_decodeCblk h]
  · simp [need_ofBE32, hrdsr, hcount, length_of_decodeBare h]
  · simp [need_ofBE32, hrdln, hcount, length_of_decodeBare h]

/-- A frame that decodes holds a whole command word (R52). -/
theorem exists_word_of_decode {f : Frame} {i : Instr} (h : decode f = .command i) :
    ∃ b0 b1 b2 b3 p, f = b0 :: b1 :: b2 :: b3 :: p := by
  match f, h with
  | b0 :: b1 :: b2 :: b3 :: p, _ => exact ⟨b0, b1, b2, b3, p, rfl⟩

theorem decode_ne_command_of_badLength {f : Frame} (hf : badLength f) (i : Instr) :
    decode f ≠ .command i := by
  intro h
  obtain hshort | ⟨b0, b1, b2, b3, p, k, rfl, hk, hp⟩ := hf
  · obtain ⟨b0, b1, b2, b3, p, rfl⟩ := exists_word_of_decode h
    simp only [List.length_cons] at hshort
    omega
  · exact hp (Option.some.inj ((need_of_decode h).symm.trans hk))

theorem decode_ne_command_of_badWord {f : Frame} (hf : badWord f) (i : Instr) :
    decode f ≠ .command i := by
  intro h
  obtain ⟨b0, b1, b2, b3, p, rfl, hword⟩ := hf
  have hnone : need (ofBE32 b0 b1 b2 b3) = none := by
    obtain hop | ⟨hop, hn⟩ := hword
    · exact need_of_unknown_opcode hop b1 b2 b3
    · exact need_of_nonzero_count (fun h3 => hop (by rw [h3]; rfl)) hn
  cases hnone.symm.trans (need_of_decode h)

/-! The step that takes such a frame. -/

/-- A step that takes a frame which is no command raises `ILLEGAL_CMD` and changes nothing else but that
the frame was taken (R137, R141). -/
theorem step_of_not_command {s : State} {f : Frame} {rest : List Frame} (hr : s.rst = false)
    (he : s.err = false) (hc : s.cmdPort = f :: rest) (hd : ∀ i, decode f ≠ .command i) :
    step s = .next { s with cmdPort := rest, err := true, errc := 1#4 } := by
  simp only [step, hr, takeFrame_cons hc]
  cases hf : decode f with
  | command i => exact absurd hf (hd i)
  | illegal why =>
    simp only [illegalFrame_eq, he]
    rfl

/-- Settles O3: the length of a frame that decodes is the one its word calls for. -/
theorem wrongFrameLengthIsIllegal : Obligations.WrongFrameLengthIsIllegal :=
  fun _ _ _ hr he hc hf => step_of_not_command hr he hc (decode_ne_command_of_badLength hf)

/-- Settles O4: the word of a frame that decodes calls for some length, an illegal word for none. -/
theorem illegalWordsRaise : Obligations.IllegalWordsRaise :=
  fun _ _ _ hr he hc hf => step_of_not_command hr he hc (decode_ne_command_of_badWord hf)

end Sys2Proof.Machine
end

section
/-! PROOFS. The statement about FF: the function of each range of rounds, and what it is on one bit. -/

namespace Sys2Proof.Machine

/-- In rounds 0..15 FF is FF0 (R67). -/
theorem FF_of_lt {j : Nat} (h : j < 16) (x y z : Word) : FF j x y z = x ^^^ y ^^^ z := if_pos h

/-- In rounds 16..63 FF is FF1 (R67). -/
theorem FF_of_le {j : Nat} (h : 16 ≤ j) (x y z : Word) :
    FF j x y z = (x &&& y) ||| (x &&& z) ||| (y &&& z) := if_neg (Nat.not_lt.mpr h)

/-- FF1 on one bit: some two of three bits are set exactly when at least two of them are. -/
theorem or_and_pairs_eq_majority (a b c : Bool) :
    (a && b || a && c || b && c) = decide (2 ≤ a.toNat + b.toNat + c.toNat) := by
  revert a b c
  decide

/-- Settles O48: both functions act on each bit alone, and FF1's three bits give their majority. -/
theorem parityAndMajority : Obligations.ParityAndMajority := by
  intro j x y z i _
  constructor
  · intro hj
    rw [FF_of_lt hj, BitVec.getLsbD_xor, BitVec.getLsbD_xor]
  · intro hj
    rw [← or_and_pairs_eq_majority, FF_of_le hj]
    simp only [BitVec.getLsbD_or, BitVec.getLsbD_and]

end Sys2Proof.Machine
end

section
/-! PROOFS. The statements about the padding rule and about the commands of the padding engine: the shape of a
padded string, and the branches of PUSH and FINAL with the next state of each. -/

namespace Sys2Proof.Machine

/-! The padding rule. -/

/-- The length field still fits the last block (R76). -/
theorem padlen_of_lt {len : Nat} (h : len % 64 < 56) : padlen len = 56 - len % 64 := if_pos h

/-- The length field needs a block of its own (R76). -/
theorem padlen_of_le {len : Nat} (h : 56 ≤ len % 64) : padlen len = 120 - len % 64 :=
  if_neg (Nat.not_lt.mpr h)

/-- Settles O39: the two cases of R76, and their values at the boundary. -/
theorem padLengthRule : Obligations.PadLengthRule := by
  intro len
  refine ⟨padlen_of_lt, padlen_of_le, padlen_pos len, padlen_le len, fun h55 => ?_, fun h56 => ?_⟩
  · rw [padlen_of_lt (by omega), h55]
  · rw [padlen_of_le (by omega), h56]

/-! The parts of a padded string. -/

/-- The bytes of `BE64` read as a big-endian number give the value back (R11). -/
theorem foldl_toBE64 (v : BitVec 64) :
    (toBE64 v).foldl (fun acc b => acc * 256 + b.toNat) 0 = v.toNat := by
  conv_rhs => rw [← ofBE64_bytes v, ofBE64_toNat]
  simp only [toBE64, List.foldl_cons, List.foldl_nil]
  omega

/-- The string, the marker with its zeros, and the length field (R78). -/
theorem pad_eq (m : List Byte) (len : Nat) : pad m len =
    m ++ (0x80#8 :: List.replicate (nzero len) 0#8 ++ toBE64 (BitVec.ofNat 64 (8 * len))) := by
  simp [pad]

/-- Marker and zeros together are `padlen` bytes (R76, R77). -/
theorem nzero_add_one (len : Nat) : nzero len + 1 = padlen len :=
  Nat.sub_add_cancel (padlen_pos len)

theorem pad_take (m : List Byte) (len : Nat) : (pad m len).take m.length = m := by
  rw [pad_eq, List.take_left]

/-- The marker stands right behind the string (R78). -/
theorem pad_marker (m : List Byte) (len : Nat) : (pad m len)[m.length]? = some 0x80#8 := by
  simp [pad_eq]

/-- Between the marker and the length field stand zeros (R78). -/
theorem pad_zero {m : List Byte} {len k : Nat} (hlo : m.length < k) (hhi : k < m.length + padlen len) :
    (pad m len)[k]? = some 0#8 := by
  obtain ⟨j, rfl⟩ : ∃ j, k = m.length + (j + 1) := ⟨k - m.length - 1, by omega⟩
  have hj : j < nzero len := by have := nzero_add_one len; omega
  rw [pad_eq, List.getElem?_append_right (Nat.le_add_right _ _), Nat.add_sub_cancel_left,
    List.cons_append, List.getElem?_cons_succ, List.getElem?_append_left (by simpa using hj),
    List.getElem?_replicate_of_lt hj]

/-- The last eight bytes are the length field (R78). -/
theorem pad_drop (m : List Byte) (len : Nat) :
    (pad m len).drop (m.length + padlen len) = toBE64 (BitVec.ofNat 64 (8 * len)) := by
  rw [pad_eq, List.drop_length_add_append, List.drop_left' (by simp [nzero_add_one])]

/-- Settles O40: the parts of a padded string, the last read as a number. -/
theorem padShape : Obligations.PadShape := by
  intro m len
  refine ⟨pad_length m len, pad_take m len, pad_marker m len, fun _ => pad_zero, ?_⟩
  rw [pad_drop, foldl_toBE64, BitVec.toNat_ofNat]

/-! The branches of PUSH and FINAL. -/

/-- While `ERR = 1` every command but the two status reads is ignored (R142). -/
theorem exec_of_err {i : Instr} {s : State} (he : s.err = true) (hs : i ≠ .rdsr) (hl : i ≠ .rdln) :
    exec i s = .next s := by
  rw [exec_eq, if_neg (not_or.mpr ⟨hs, hl⟩), guarded_of_err he]

/-- Outside ACTIVE the commands of an open computation fail the phase check, which is their first (R138,
R139). -/
theorem firstFault_of_not_active {i : Instr} {s : State} (hp : s.phase ≠ .active)
    (hi : i = .final ∨ (∃ m, i = .push m) ∨ ∃ b, i = .cblk b) :
    firstFault (checksOf i s) = some .badPhase := by
  obtain rfl | ⟨m, rfl⟩ | ⟨b, rfl⟩ := hi <;> simp [checksOf, State.notActive, hp]

/-- In ACTIVE a PUSH that would take `LEN` above `MAXLEN` fails its length check (R84). -/
theorem push_overflows {s : State} {m : List Byte} (hp : s.phase = .active)
    (hm : maxLen < s.len.toNat + m.length) :
    firstFault (checksOf (.push m) s) = some .lenOverflow := by
  simp [checksOf, State.notActive, hp, hm]

/-- In ACTIVE a PUSH within `MAXLEN` absorbs its bytes (R84). -/
theorem exec_push_of_passes {s : State} {m : List Byte} (he : s.err = false) (hp : s.phase = .active)
    (hm : s.len.toNat + m.length ≤ maxLen) : exec (.push m) s = .next (s.absorbAll m) :=
  exec_of_passes he ((push_passes_iff m s).mpr ⟨hp, hm⟩)

/-- Settles O17: the checks in their order; a PUSH that passes them cuts tail and payload into blocks. -/
theorem pushResult : Obligations.PushResult := by
  intro s m
  rw [← maxLen_eq]
  refine ⟨fun _ => encode_eq (.push m), fun he => ?blocked, fun he hp => ?phase,
    fun he hp hm => ?overflow, fun he hp hm ht => ?completes⟩
  case blocked => exact exec_of_err he nofun nofun
  case phase => exact exec_of_fails he (firstFault_of_not_active hp (.inr (.inl ⟨m, rfl⟩)))
  case overflow => exact exec_of_fails he (push_overflows hp hm)
  case completes =>
    have hshort : s.tail.length < 64 := ht ▸ Nat.mod_lt _ (by decide)
    rw [exec_push_of_passes he hp hm, absorbAll_eq m hshort, blocks_take]

/-- Settles O18: PUSH of one byte is `absorb`, whose test of the buffer is R83's by the premise on the
tail. -/
theorem absorbOneByte : Obligations.AbsorbOneByte := by
  intro s b he hp ht hm
  rw [← maxLen_eq] at hm
  have hexec : exec (.push [b]) s = .next (s.absorb b) := exec_push_of_passes he hp hm
  refine ⟨fun hr => ?_, fun _ blk hblk => ?_⟩
  · rw [hexec, absorb_of_short b (by omega)]
  · rw [hexec, absorb_of_full hblk]

/-- Settles O20: the phase check; a FINAL that passes it closes the computation. -/
theorem finalResult : Obligations.FinalResult := by
  refine ⟨encode_eq .final, fun s => ⟨fun he => ?blocked, fun he hp => ?phase, fun he hp => ?completes⟩⟩
  case blocked => exact exec_of_err he nofun nofun
  case phase => exact exec_of_fails he (firstFault_of_not_active hp (.inl rfl))
  case completes =>
    exact ⟨s.finish, exec_of_passes he ((final_passes_iff s).mpr hp), finish_v s, finish_phase s,
      finish_len s, finish_err s, finish_errc s, finish_cmdPort s, finish_respPort s, finish_rst s,
      finish_resets s⟩

end Sys2Proof.Machine
end

section
/-! PROOFS. The statements about compression: the message schedule in the spec's own indices, the 64 rounds as
a sequence of registers, and the branches of CBLK with the next state of each. -/

namespace Sys2Proof.Machine

/-! The message schedule. -/

/-- The expansion rule on the whole schedule, with `j = 16 + k` (R93). -/
theorem schedule_expansion (blk : Block) (k : Nat) (h : k < 52) :
    (schedule blk)[16 + k] =
      P1 ((schedule blk)[k] ^^^ (schedule blk)[k + 7] ^^^ rotl (schedule blk)[k + 13] 15)
        ^^^ rotl (schedule blk)[k + 3] 7 ^^^ (schedule blk)[k + 10] := by
  have hstage (i : Nat) (hi : i < 16 + k) :
      (schedule blk)[i] = (expand (blockWords blk) k)[i] := expand_of_le _ h.le i hi
  have hnew : (schedule blk)[16 + k] = (expand (blockWords blk) (k + 1))[16 + k] :=
    expand_of_le _ h (16 + k) (by omega)
  rw [hnew, expand_new, hstage k, hstage (k + 7), hstage (k + 13), hstage (k + 3), hstage (k + 10)]

/-- Settles O53: the block words as numbers, the expansion rule with `k = j - 16`, the derived words. -/
theorem scheduleWords : Obligations.ScheduleWords := by
  intro blk
  refine ⟨fun i hi => ?block, fun j h0 hj => ⟨_, rfl, ?expansion⟩, fun j _ => rfl⟩
  case block => rw [schedule_block blk i hi, blockWords_getElem, ofBE32_toNat]
  case expansion =>
    obtain ⟨k, rfl⟩ := Nat.exists_eq_add_of_le h0
    have h16 : 16 + k - 16 = k := by omega
    have h9 : 16 + k - 9 = k + 7 := by omega
    have h3 : 16 + k - 3 = k + 13 := by omega
    have h13 : 16 + k - 13 = k + 3 := by omega
    have h6 : 16 + k - 6 = k + 10 := by omega
    simp only [h16, h9, h3, h13, h6]
    exact schedule_expansion blk k (by omega)

/-! The rounds. -/

/-- The registers of `compress v blk` before round `k`, which for `k = 64` are the final ones; no
round follows, so the sequence stays there. -/
def regsBefore (v : ChainState) (blk : Block) (k : Nat) : Regs :=
  roundsUpTo (schedule blk) (startRegs v) (min k 64) (Nat.min_le_right k 64)

theorem regsBefore_of_le (v : ChainState) (blk : Block) {k : Nat} (h : k ≤ 64) :
    regsBefore v blk k = roundsUpTo (schedule blk) (startRegs v) k h := by
  simp only [regsBefore, Nat.min_eq_left h]

theorem regsBefore_zero (v : ChainState) (blk : Block) : regsBefore v blk 0 = startRegs v := rfl

/-- Each round works on the output of the one before it (R99). -/
theorem regsBefore_succ (v : ChainState) (blk : Block) (j : Nat) (h : j < 64) :
    regsBefore v blk (j + 1) =
      cfRound j (regsBefore v blk j) (schedule blk)[j] (derivedWord (schedule blk) j h) := by
  rw [regsBefore_of_le v blk h, regsBefore_of_le v blk h.le, roundsUpTo_succ]

theorem regsBefore_end (v : ChainState) (blk : Block) : regsBefore v blk 64 = finalRegs v blk := rfl

/-- The feedback on all eight words (R101). -/
theorem compress_eq (v : ChainState) (blk : Block) {r : Regs} (hr : finalRegs v blk = r) :
    compress v blk = #v[v[0] ^^^ r.a, v[1] ^^^ r.b, v[2] ^^^ r.c, v[3] ^^^ r.d, v[4] ^^^ r.e,
      v[5] ^^^ r.f, v[6] ^^^ r.g, v[7] ^^^ r.h] := by
  ext i hi
  rw [compress_getElem, hr]
  interval_cases i <;> rfl

/-- Settles O54: the registers before each round are the sequence; a round is R99's and R100's equations. -/
theorem compressIsSixtyFourRounds : Obligations.CompressIsSixtyFourRounds := by
  intro v blk
  exact ⟨regsBefore v blk, regsBefore_zero v blk,
    fun j hj => ⟨_, _, _, _, rfl, rfl, rfl, rfl, regsBefore_succ v blk j hj⟩,
    compress_eq v blk (regsBefore_end v blk).symm⟩

/-! The branches of CBLK. -/

/-- CBLK's frame: `n` is 0, the payload is the block (R103). -/
theorem encode_cblk (blk : Block) :
    encode (.cblk blk) = [0x06#8, 0#8, 0#8, 0#8] ++ blk.toList := by
  simp [encode_eq, opcode, countOf, payload]

/-- CBLK passes its checks exactly in ACTIVE and on a block boundary (R103). -/
theorem cblk_passes_iff (blk : Block) (s : State) :
    firstFault (checksOf (.cblk blk) s) = none ↔ s.phase = .active ∧ s.len.toNat % 64 = 0 := by
  simp [checksOf, State.notActive]

/-- In ACTIVE a CBLK off a block boundary fails its alignment check (R103). -/
theorem cblk_misaligned (blk : Block) {s : State} (hp : s.phase = .active)
    (hl : s.len.toNat % 64 ≠ 0) :
    firstFault (checksOf (.cblk blk) s) = some .blockMisaligned := by
  simp [checksOf, State.notActive, hp, hl]

/-- Settles O21: the checks in their order; a CBLK that passes them compresses its block into `V`. -/
theorem cblkResult : Obligations.CblkResult := by
  intro s blk
  refine ⟨encode_cblk blk, fun he => ?blocked, fun he hp => ?phase, fun he hp hl => ?misaligned,
    fun he hp hl => ?completes⟩
  case blocked => exact exec_of_err he nofun nofun
  case phase => exact exec_of_fails he (firstFault_of_not_active hp (.inr (.inr ⟨blk, rfl⟩)))
  case misaligned => exact exec_of_fails he (cblk_misaligned blk hp hl)
  case completes => exact exec_of_passes he ((cblk_passes_iff blk s).mpr ⟨hp, hl⟩)

end Sys2Proof.Machine
end

section
/-! PROOFS. The statements about the hash engine: INIT, the three reads RDDG, RDSR and RDLN with the next state
of each branch, and the serializer and the parser as inverses of each other. -/

namespace Sys2Proof.Machine

/-! INIT and the reads. -/

/-- RDDG passes its check exactly when a computation has been opened (R116). -/
theorem rddg_passes_iff (s : State) :
    firstFault (checksOf .rddg s) = none ↔ s.phase ≠ .idle := by
  simp [checksOf]

/-- `BE64` by R11's formula: byte `i` is `(v div 2^(8*(7-i))) mod 256`. -/
theorem toBE64_eq_map (v : BitVec 64) :
    toBE64 v = (List.range 8).map fun i => BitVec.ofNat 8 (v.toNat / 2 ^ (8 * (7 - i))) := by
  simp only [toBE64, BitVec.extractLsb', Nat.shiftRight_eq_div_pow]
  rfl

/-- Settles O13: INIT has no check, so while `ERR = 0` it opens a computation in every phase. -/
theorem initResult : Obligations.InitResult :=
  ⟨encode_eq .init, fun _ => ⟨fun he => exec_of_err he nofun nofun, fun he => exec_of_passes he rfl⟩⟩

/-- Settles O23: the phase check; a RDDG that passes it answers the serialized state. -/
theorem rddgResult : Obligations.RddgResult := by
  refine ⟨encode_eq .rddg, fun s => ⟨fun he => ?blocked, fun he hp => ?phase, fun he hp => ?completes⟩⟩
  case blocked => exact exec_of_err he nofun nofun
  case phase => exact exec_of_fails he (firstFault_of_idle hp (.inl rfl))
  case completes => exact exec_of_passes he ((rddg_passes_iff s).mpr hp)

/-- Settles O24: the word answered is STATUS, whose formula fits 32 bits. -/
theorem rdsrResult : Obligations.RdsrResult :=
  ⟨encode_eq .rdsr, fun s => ⟨s.status, status_toNat s, exec_eq .rdsr s⟩⟩

/-- Settles O26: the bytes answered are `BE64` of `LEN`, written by R11's formula. -/
theorem rdlnResult : Obligations.RdlnResult := by
  refine ⟨encode_eq .rdln, fun s => ?_⟩
  rw [← toBE64_eq_map]
  exact exec_eq .rdln s

/-! The serializer and the parser. -/

/-- `BE32` by R11: byte `k` is the `k`-th from the most significant end. -/
theorem toBE32_getElem (w : Word) (k : Nat) (h : k < 4) :
    (toBE32 w)[k] = w.extractLsb' (24 - 8 * k) 8 := by
  interval_cases k <;> rfl

/-- A byte of a serialized state, by its word and its place in the word (R115). -/
theorem serialize_byte (v : ChainState) (i k : Nat) (hi : i < 8) (hk : k < 4) :
    (serialize v)[4 * i + k] = (v[i]).extractLsb' (24 - 8 * k) 8 := by
  have hword : (4 * i + k) / 4 = i := by omega
  have hplace : (4 * i + k) % 4 = k := by omega
  simp only [serialize_getElem, hword, hplace]

/-- The four bytes of a word of a parsed digest are the digest's (R126). -/
theorem toBE32_parse (d : Digest) (i : Nat) (h : i < 8) :
    toBE32 (parse d)[i] = [d[4 * i], d[4 * i + 1], d[4 * i + 2], d[4 * i + 3]] := by
  rw [parse_getElem, toBE32_ofBE32]

theorem parse_serialize (v : ChainState) : parse (serialize v) = v := by
  ext i hi : 1
  have h0 : (serialize v)[4 * i] = (v[i]).extractLsb' 24 8 := serialize_byte v i 0 hi (by decide)
  have h1 : (serialize v)[4 * i + 1] = (v[i]).extractLsb' 16 8 := serialize_byte v i 1 hi (by decide)
  have h2 : (serialize v)[4 * i + 2] = (v[i]).extractLsb' 8 8 := serialize_byte v i 2 hi (by decide)
  have h3 : (serialize v)[4 * i + 3] = (v[i]).extractLsb' 0 8 := serialize_byte v i 3 hi (by decide)
  rw [parse_getElem _ i hi, h0, h1, h2, h3, ofBE32_bytes]

theorem serialize_parse (d : Digest) : serialize (parse d) = d := by
  ext p hp : 1
  obtain ⟨i, k, hi, hk, rfl⟩ : ∃ i k, i < 8 ∧ k < 4 ∧ p = 4 * i + k :=
    ⟨p / 4, p % 4, by omega, by omega, by omega⟩
  rw [serialize_byte _ i k hi hk, ← toBE32_getElem _ k hk]
  simp only [toBE32_parse d i hi]
  interval_cases k <;> rfl

/-- Settles O56: bytes and words by their index; each direction is the round trip of one word's four bytes. -/
theorem parseSerializeInverse : Obligations.ParseSerializeInverse := by
  refine ⟨serialize_byte, fun d i hi => ?_, parse_serialize, serialize_parse⟩
  rw [parse_getElem d i hi, ofBE32_toNat]

end Sys2Proof.Machine
end

section
/-! PROOFS. The statement about the state load: the branches of LDST with the next state of each. -/

namespace Sys2Proof.Machine

/-- LDST's frame: `n` is 0, the payload is the digest and `BE64` of the length (R128). -/
theorem encode_ldst (d : Digest) (l0 : BitVec 64) :
    encode (.ldst d l0) = [0x02#8, 0#8, 0#8, 0#8] ++ d.toList ++ toBE64 l0 := by
  simp [encode_eq, opcode, countOf, payload]

/-- An LDST whose length is no whole number of blocks fails its first check (R128, R139). -/
theorem ldst_badOperand (d : Digest) {l0 : BitVec 64} (s : State) (hl : l0.toNat % 64 ≠ 0) :
    firstFault (checksOf (.ldst d l0) s) = some .badOperand := by
  simp [checksOf, hl]

/-- An LDST of whole blocks above `MAXLEN` fails its length check (R128). -/
theorem ldst_overflows (d : Digest) {l0 : BitVec 64} (s : State) (hl : l0.toNat % 64 = 0)
    (hm : maxLen < l0.toNat) :
    firstFault (checksOf (.ldst d l0) s) = some .lenOverflow := by
  simp [checksOf, hl, hm]

/-- Settles O14: the checks in their order; an LDST that passes them opens a computation on the parsed
digest. -/
theorem ldstResult : Obligations.LdstResult := by
  intro s d l0
  rw [← maxLen_eq]
  refine ⟨encode_ldst d l0, fun he => ?blocked, fun he hl => ?operand, fun he hl hm => ?overflow,
    fun he hl hm => ?completes⟩
  case blocked => exact exec_of_err he nofun nofun
  case operand => exact exec_of_fails he (ldst_badOperand d s hl)
  case overflow => exact exec_of_fails he (ldst_overflows d s hl hm)
  case completes => exact exec_of_passes he ((ldst_passes_iff d l0 s).mpr ⟨hl, hm⟩)

end Sys2Proof.Machine
end

section
/-! PROOF SUPPORT. A step by the frame it takes, and the phase check of each command by the phase table. -/

namespace Sys2Proof.Machine

open Sys2Proof.Claims

/-! The step by what stands on the command port. -/

/-- With no frame delivered the block waits (R150). -/
theorem step_of_empty {s : State} (hr : s.rst = false) (hc : s.cmdPort = []) : step s = .next s := by
  simp [step, hr, takeFrame_nil hc]

/-- The step that takes a command's frame is the command, with the frame off the port (R39, R40). -/
theorem step_of_command {s : State} {f : Frame} {rest : List Frame} {i : Instr} (hr : s.rst = false)
    (hc : s.cmdPort = f :: rest) (hd : decode f = .command i) :
    step s = exec i { s with cmdPort := rest } := by
  simp [step, hr, takeFrame_cons hc, hd]

/-- The step that takes an illegal frame treats it as one that raises `ILLEGAL_CMD` (R137). -/
theorem step_of_illegal {s : State} {f : Frame} {rest : List Frame} {why : IllegalFrame}
    (hr : s.rst = false) (hc : s.cmdPort = f :: rest) (hd : decode f = .illegal why) :
    step s = .next ({ s with cmdPort := rest } : State).illegalFrame := by
  simp [step, hr, takeFrame_cons hc, hd]

/-- Every step ends in a next state: the faults of this hardware are recorded states (log 8). -/
theorem exists_next_step (s : State) : ∃ t, step s = .next t := by
  cases hr : s.rst with
  | true => exact ⟨_, step_of_rst hr⟩
  | false =>
    cases hc : s.cmdPort with
    | nil => exact ⟨_, step_of_empty hr hc⟩
    | cons f rest =>
      cases hd : decode f with
      | command i => exact ⟨_, (step_of_command hr hc hd).trans (exec_eq i _)⟩
      | illegal why => exact ⟨_, step_of_illegal hr hc hd⟩

/-- While `ERR = 1` an illegal frame is only taken (R142). -/
theorem step_of_illegal_of_err {s : State} {f : Frame} {rest : List Frame} {why : IllegalFrame}
    (hr : s.rst = false) (he : s.err = true) (hc : s.cmdPort = f :: rest)
    (hd : decode f = .illegal why) : step s = .next { s with cmdPort := rest } := by
  rw [step_of_illegal hr hc hd, illegalFrame_eq, if_pos he]

/-- The step that takes a command which fails a check raises the first one that fails, and changes nothing
else but that the frame was taken (R139, R141). -/
theorem step_of_fails {s : State} {f : Frame} {rest : List Frame} {i : Instr} {c : Cause}
    (hr : s.rst = false) (he : s.err = false) (hc : s.cmdPort = f :: rest)
    (hd : decode f = .command i) (hf : firstFault (checksOf i { s with cmdPort := rest }) = some c) :
    step s = .next { s with cmdPort := rest, err := true, errc := c.code } :=
  (step_of_command hr hc hd).trans (exec_of_fails he hf)

/-! The phase check, and the codes a fault reports. -/

/-- A command that its phase does not accept fails the phase check, which is its first (R138, R139). -/
theorem firstFault_of_not_accepted {i : Instr} {s : State} (h : acceptedIn i s.phase = false) :
    firstFault (checksOf i s) = some .badPhase := by
  cases i with
  | init | ldst d l0 | rdsr | rdln => cases h
  | rddg => exact firstFault_of_idle (by simpa [acceptedIn] using h) (.inl rfl)
  | final => exact firstFault_of_not_active (by simpa [acceptedIn] using h) (.inl rfl)
  | push m => exact firstFault_of_not_active (by simpa [acceptedIn] using h) (.inr (.inl ⟨m, rfl⟩))
  | cblk blk => exact firstFault_of_not_active (by simpa [acceptedIn] using h) (.inr (.inr ⟨blk, rfl⟩))

/-- Only the phase check reports `BAD_PHASE`, so a command that reports it is not accepted (R138). -/
theorem not_accepted_of_badPhase {i : Instr} {s : State}
    (h : firstFault (checksOf i s) = some .badPhase) : acceptedIn i s.phase = false := by
  have hmem : (true, Cause.badPhase) ∈ checksOf i s := firstFault_mem h
  cases i with
  | init | rdsr | rdln => cases hmem
  | ldst d l0 => simp [checksOf] at hmem
  | push m | final | rddg | cblk blk =>
    simpa [checksOf, State.notActive, acceptedIn] using hmem

/-- The codes of the faults are 1 to 5 (R136). -/
theorem Cause.code_bounds (c : Cause) : 1 ≤ c.code.toNat ∧ c.code.toNat ≤ 5 := by
  cases c <;> decide

/-- Code 2 is `BAD_PHASE`'s alone (R136). -/
theorem Cause.eq_badPhase_of_code {c : Cause} (h : c.code = 2#4) : c = .badPhase := by
  cases c with
  | badPhase => rfl
  | illegalCmd | badOperand | blockMisaligned | lenOverflow => cases h

/-! What a command does to `ERR` and `ERRC`. -/

/-- No command's effect writes `ERRC` (R141, R145). -/
@[simp] theorem effect_errc (i : Instr) (s : State) : (effect i s).errc = s.errc := by
  cases i <;> simp [effect]

/-- A command that turns `ERR` from 0 to 1 failed a check and did nothing but raise the first one that failed
(R139, R141). -/
theorem exists_fault_of_err {i : Instr} {s t : State} (he : s.err = false) (h : exec i s = .next t)
    (ht : t.err = true) : ∃ c, firstFault (checksOf i s) = some c ∧ t = s.raise c := by
  obtain ⟨hs, -⟩ | ⟨-, hfault⟩ | ⟨-, -, rfl⟩ := exec_cases h
  · rw [he] at hs
    cases hs
  · exact hfault
  · rw [effect_err, he] at ht
    cases ht

/-- No command clears a recorded fault or replaces its code, and the registers stay as they are (R142, R145). -/
theorem exec_keeps_fault {i : Instr} {s t : State} (he : s.err = true) (h : exec i s = .next t) :
    t.err = true ∧ t.errc = s.errc ∧ t.v = s.v ∧ t.tail = s.tail ∧ t.len = s.len ∧
      t.phase = s.phase := by
  have hframe := exec_frame_of_err h (.inl he)
  obtain ⟨-, rfl⟩ | ⟨hs, -⟩ | ⟨-, -, rfl⟩ := exec_cases h
  · exact ⟨he, rfl, hframe⟩
  · rw [he] at hs
    cases hs
  · exact ⟨(effect_err i s).trans he, effect_errc i s, hframe⟩

/-! A system of instances. -/

/-- A step of instance `k` replaces its state in the system (R152). -/
theorem stepInstance_of_step {n : Nat} {k : Fin n} {sys : System n} {t : State}
    (h : step sys[k.val] = .next t) : stepInstance k sys = .next (sys.set k.val t) := by
  simp only [stepInstance, h]

/-- An interleaving goes on after a step of its first instance. -/
theorem runInterleaved_cons {n : Nat} {k : Fin n} {sys sys' : System n}
    (h : stepInstance k sys = .next sys') (order : List (Fin n)) :
    runInterleaved (k :: order) sys = runInterleaved order sys' := by
  simp only [runInterleaved, h]

end Sys2Proof.Machine
end

section
/-! PROOFS. The statements about faults and blocking: the order of the checks, the phase table, what raising a
fault leaves, what can clear it; and the independence of instances, each with its own faults. -/

namespace Sys2Proof.Machine

open Sys2Proof.Claims

/-- Settles O28: each clause names the first check that fails for the frame's command, or that there is no
check to reach because the step is blocked or the frame is no command. -/
theorem faultPriority : Obligations.FaultPriority := by
  intro s f rest hr hc
  rw [← maxLen_eq]
  refine ⟨fun he hnot => ?blocked, fun he hd => ?illegal, fun i he hd hp => ?phase,
    fun d l0 he hd hl => ?operand, fun b he hd hp hl => ?misaligned, fun m he hd hp hm => ?pushOverflow,
    fun d l0 he hd hl hm => ?ldstOverflow⟩
  case blocked =>
    cases hd : decode f with
    | command i =>
      obtain ⟨hrdsr, hrdln⟩ := hnot i hd
      exact (step_of_command hr hc hd).trans (exec_of_err he hrdsr hrdln)
    | illegal why => exact step_of_illegal_of_err hr he hc hd
  case illegal => exact step_of_not_command hr he hc hd
  case phase => exact step_of_fails hr he hc hd (firstFault_of_not_accepted hp)
  case operand => exact step_of_fails hr he hc hd (ldst_badOperand d _ hl)
  case misaligned => exact step_of_fails hr he hc hd (cblk_misaligned b hp hl)
  case pushOverflow => exact step_of_fails hr he hc hd (push_overflows hp hm)
  case ldstOverflow => exact step_of_fails hr he hc hd (ldst_overflows d _ hl hm)

/-- Settles O29: the phase check is the first of a command and the only one that reports code 2. -/
theorem phaseTable : Obligations.PhaseTable := by
  intro i s he
  refine ⟨fun hp => exec_of_fails he (firstFault_of_not_accepted hp), fun hp t h ht hcode => ?_⟩
  obtain ⟨c, hc, rfl⟩ := exists_fault_of_err he h ht
  obtain rfl : c = .badPhase := Cause.eq_badPhase_of_code hcode
  exact Bool.false_ne_true ((not_accepted_of_badPhase hc).symm.trans hp)

/-- Settles O30: a command that turns `ERR` to 1 is one that raised a fault, and its effect was not run. -/
theorem faultsArePrecise : Obligations.FaultsArePrecise := by
  intro i s t he h ht
  obtain ⟨c, -, rfl⟩ := exists_fault_of_err he h ht
  obtain ⟨hlo, hhi⟩ := c.code_bounds
  exact ⟨c.code, hlo, hhi, rfl⟩

/-- Settles O31: the blocked commands, an illegal frame, and the two reads, which have no check. -/
theorem blockedWhileErr : Obligations.BlockedWhileErr :=
  fun s he => ⟨fun _ hrdsr hrdln => exec_of_err he hrdsr hrdln,
    fun _ _ _ hr hc hd => step_of_illegal_of_err hr he hc hd, exec_eq .rdsr s, exec_eq .rdln s⟩

/-- Settles O32: the cases of a step; a command taken while `ERR = 1` keeps the fault and the registers. -/
theorem onlyResetClearsErr : Obligations.OnlyResetClearsErr := by
  intro s t h
  refine ⟨fun hr => ?reset, fun hr he => ?faulted⟩
  case reset =>
    cases (step_of_rst hr).symm.trans h
    exact ⟨applyReset_err s, applyReset_errc s⟩
  case faulted =>
    obtain ⟨hrst, -⟩ | ⟨-, -, rfl⟩ | ⟨-, f, rest, why, -, -, rfl⟩ | ⟨-, f, rest, i, -, -, hexec⟩ :=
      step_cases h
    · rw [hr] at hrst
      cases hrst
    · exact ⟨he, rfl, rfl, rfl, rfl, rfl⟩
    · rw [illegalFrame_eq, if_pos he]
      exact ⟨he, rfl, rfl, rfl, rfl, rfl⟩
    · exact exec_keeps_fault (s := { s with cmdPort := rest }) he hexec

/-- Settles O60, by induction on the order: its first step is the next one of the instance it names, and no
step of any other. -/
theorem instancesAreIndependent : Obligations.InstancesAreIndependent := by
  intro n order
  induction order with
  | nil => exact fun sys => ⟨sys, rfl, fun k => run_zero sys[k.val]⟩
  | cons j order ih =>
    intro sys
    obtain ⟨u, hu⟩ := exists_next_step sys[j.val]
    obtain ⟨t, ht, hown⟩ := ih (sys.set j.val u)
    refine ⟨t, (runInterleaved_cons (stepInstance_of_step hu) order).trans ht, fun k => ?_⟩
    rw [← hown k]
    by_cases hk : j = k
    · subst hk
      rw [List.count_cons_self, run_succ _ hu, Vector.getElem_set_self]
    · rw [List.count_cons_of_ne hk, Vector.getElem_set_ne _ _ (Fin.val_ne_of_ne hk)]

end Sys2Proof.Machine
end

section
/-! PROOFS. What a reset does and what no step without one does. -/

namespace Sys2Proof.Machine

/-- No command's effect performs a reset (R156). -/
@[simp] theorem effect_resets (i : Instr) (s : State) : (effect i s).resets = s.resets := by
  cases i <;> simp [effect]

/-- No command performs a reset, whether it is blocked, faults or has its effect (R156). -/
theorem exec_resets {i : Instr} {s t : State} (h : exec i s = .next t) : t.resets = s.resets := by
  obtain ⟨-, rfl⟩ | ⟨-, c, -, rfl⟩ | ⟨-, -, rfl⟩ := exec_cases h
  · rfl
  · exact raise_resets s c
  · exact effect_resets i s

/-- An illegal frame performs no reset: it raises its fault or is blocked (R141, R142). -/
@[simp] theorem illegalFrame_resets (s : State) : s.illegalFrame.resets = s.resets := by
  rw [illegalFrame_eq]
  split <;> rfl

/-- Without a pending reset no step performs one (R156). -/
theorem step_resets {s t : State} (hr : s.rst = false) (h : step s = .next t) :
    t.resets = s.resets := by
  obtain ⟨hrst, -⟩ | ⟨-, -, rfl⟩ | ⟨-, f, rest, why, -, -, rfl⟩ | ⟨-, f, rest, i, -, -, hexec⟩ :=
    step_cases h
  · exact absurd (hr.symm.trans hrst) Bool.false_ne_true
  · rfl
  · exact illegalFrame_resets { s with cmdPort := rest }
  · exact exec_resets (s := { s with cmdPort := rest }) hexec

/-- Settles O11: a pending reset is the whole step, and its fields are read off; any other step keeps the
count of resets, and keeps `ERR` by `onlyResetClearsErr`. -/
theorem resetFromAnyState : Obligations.ResetFromAnyState := by
  refine ⟨fun s hr => ?reset, fun s t hr h => ?noReset⟩
  case reset =>
    exact ⟨s.applyReset, step_of_rst hr, applyReset_phase s, applyReset_err s, applyReset_errc s,
      applyReset_len s, applyReset_cmdPort s, fun _ hmem => applyReset_respPort s ▸ hmem⟩
  case noReset =>
    obtain ⟨-, hkeep⟩ := onlyResetClearsErr s t h
    exact ⟨step_resets hr h, fun he => (hkeep hr he).left⟩

end Sys2Proof.Machine
end

section
/-! PROOFS. The statements about encoding: the decoder and the encoder undo each other. -/

namespace Sys2Proof.Machine

/-! The payload of each format, read back. -/

theorem decodeLdst_payload (d : Digest) (l0 : BitVec 64) :
    decodeLdst (d.toList ++ toBE64 l0) = .command (.ldst d l0) := by
  have hl : (d.toList ++ toBE64 l0).length = 40 := by simp
  have hd : digestOperand (d.toList ++ toBE64 l0) hl = d := by
    apply Vector.toList_inj.mp
    show (d.toList ++ toBE64 l0).take 32 = d.toList
    rw [List.take_left' Vector.length_toList]
  have hw : lengthOperand (d.toList ++ toBE64 l0) hl = l0 := by
    simp only [lengthOperand, List.getElem_append_right, Vector.length_toList, Nat.le_refl,
      Nat.reduceLeDiff, Nat.reduceSub]
    exact ofBE64_bytes l0
  rw [decodeLdst, dif_pos hl, hd, hw]

theorem decodeCblk_payload (blk : Block) : decodeCblk blk.toList = .command (.cblk blk) := by
  rw [decodeCblk, dif_pos Vector.length_toList]
  rfl

theorem decodePush_payload (m : List Byte) : decodePush m.length m = .command (.push m) :=
  if_pos rfl

/-- A command is well-formed exactly when its count fits the 24 bits of the `n` field (R47, R55). -/
theorem wellFormed_iff (i : Instr) : i.wellFormed = true ↔ countOf i < 2 ^ 24 := by
  cases i with
  | init | ldst d l0 | final | rddg | cblk blk | rdsr | rdln => simp [Instr.wellFormed, countOf]
  | push m =>
    rw [Instr.wellFormed, decide_eq_true_iff, maxPush, countOf]
    omega

/-- Settles O1: each command's payload is read back; PUSH's count, which fits its 24 bits, too. -/
theorem decodeOfEncode : Obligations.DecodeOfEncode := by
  intro i hw
  simp only [encode_eq, decode, countField_ofNat ((wellFormed_iff i).mp hw)]
  cases i with
  | init | final | rddg | rdsr | rdln => rfl
  | ldst d l0 => exact decodeLdst_payload d l0
  | cblk blk => exact decodeCblk_payload blk
  | push m => exact decodePush_payload m

/-! What decodes, by the format of its frame. -/

/-- A bare frame decodes only to the command of its opcode, and only without payload (R48). -/
theorem parts_of_decodeBare {i j : Instr} {b : Byte} {n : Nat} {p : List Byte}
    (h : decodeBare j p = .command i) (hop : opcode j = b) (hcount : countOf j = n)
    (hpayload : payload j = []) : opcode i = b ∧ countOf i = n ∧ payload i = p := by
  have hp := length_of_decodeBare h
  rw [decodeBare, if_pos hp] at h
  obtain rfl : j = i := Decoded.command.inj h
  obtain rfl : p = [] := List.length_eq_zero_iff.mp hp
  exact ⟨hop, hcount, hpayload⟩

theorem eq_of_decodePush {i : Instr} {n : Nat} {p : List Byte} (h : decodePush n p = .command i) :
    i = .push p ∧ p.length = n := by
  have hp := length_of_decodePush h
  rw [decodePush, if_pos hp] at h
  exact ⟨(Decoded.command.inj h).symm, hp⟩

theorem exists_of_decodeCblk {i : Instr} {p : List Byte} (h : decodeCblk p = .command i) :
    ∃ blk, i = .cblk blk ∧ blk.toList = p := by
  have hp := length_of_decodeCblk h
  rw [decodeCblk, dif_pos hp] at h
  exact ⟨blockOperand p hp, (Decoded.command.inj h).symm, rfl⟩

/-- The last eight of LDST's 40 payload bytes are its length operand (R50). -/
theorem toBE64_lengthOperand {p : List Byte} (h : p.length = 40) :
    toBE64 (lengthOperand p h) = p.drop 32 := by
  rw [lengthOperand, toBE64_ofBE64]
  apply List.ext_getElem
  · simp [h]
  · intro k hk _
    rw [List.getElem_drop]
    simp only [List.length_cons, List.length_nil] at hk
    interval_cases k <;> rfl

theorem exists_of_decodeLdst {i : Instr} {p : List Byte} (h : decodeLdst p = .command i) :
    ∃ d l0, i = .ldst d l0 ∧ d.toList ++ toBE64 l0 = p := by
  have hp := length_of_decodeLdst h
  rw [decodeLdst, dif_pos hp] at h
  refine ⟨digestOperand p hp, lengthOperand p hp, (Decoded.command.inj h).symm, ?_⟩
  rw [toBE64_lengthOperand hp]
  exact List.take_append_drop 32 p

/-- A frame that decodes holds the three parts of its command: opcode, count and payload (R46). -/
theorem parts_of_decode {b0 b1 b2 b3 : Byte} {p : List Byte} {i : Instr}
    (h : decode (b0 :: b1 :: b2 :: b3 :: p) = .command i) :
    opcode i = b0 ∧ countOf i = countField b1 b2 b3 ∧ payload i = p := by
  simp only [decode] at h
  split_ifs at h with hpush hcount hinit hldst hfinal hrddg hcblk hrdsr hrdln
  · obtain ⟨rfl, hlen⟩ := eq_of_decodePush h
    exact ⟨hpush.symm, hlen, rfl⟩
  all_goals have hzero : 0 = countField b1 b2 b3 := (not_not.mp hcount).symm
  · exact parts_of_decodeBare h hinit.symm hzero rfl
  · obtain ⟨d, l0, rfl, hp⟩ := exists_of_decodeLdst h
    exact ⟨hldst.symm, hzero, hp⟩
  · exact parts_of_decodeBare h hfinal.symm hzero rfl
  · exact parts_of_decodeBare h hrddg.symm hzero rfl
  · obtain ⟨blk, rfl, hp⟩ := exists_of_decodeCblk h
    exact ⟨hcblk.symm, hzero, hp⟩
  · exact parts_of_decodeBare h hrdsr.symm hzero rfl
  · exact parts_of_decodeBare h hrdln.symm hzero rfl

/-- The number in the `n` field gives its three bytes back (R47). -/
theorem countField_bytes (b1 b2 b3 : Byte) :
    BitVec.ofNat 8 (countField b1 b2 b3 / 65536) = b1 ∧
      BitVec.ofNat 8 (countField b1 b2 b3 / 256) = b2 ∧ BitVec.ofNat 8 (countField b1 b2 b3) = b3 := by
  have h1 := b1.isLt
  have h2 := b2.isLt
  have h3 := b3.isLt
  unfold countField
  refine ⟨?_, ?_, ?_⟩ <;> (apply BitVec.eq_of_toNat_eq; rw [BitVec.toNat_ofNat]; omega)

/-- Settles O2: the parts of the frame are those the encoder writes, its count within 24 bits. -/
theorem encodeOfDecode : Obligations.EncodeOfDecode := by
  intro f i h
  obtain ⟨b0, b1, b2, b3, p, rfl⟩ := exists_word_of_decode h
  obtain ⟨hop, hcount, hpayload⟩ := parts_of_decode h
  obtain ⟨h1, h2, h3⟩ := countField_bytes b1 b2 b3
  refine ⟨?_, (wellFormed_iff i).mpr (hcount ▸ countField_lt b1 b2 b3)⟩
  rw [encode_eq, hop, hcount, hpayload, h1, h2, h3]

/-- Settles O5: each frame is read by running the decoder on it. -/
theorem publishedFramesDecode : Obligations.PublishedFramesDecode := by
  refine ⟨?_, ?_, ?_, ?_, ?_, ?_, ?_, ?_, ?_⟩ <;> decide

end Sys2Proof.Machine
end

section
/-! PROOFS. The invariant of buffer, `LEN` and fault code, and the way out of IDLE. -/

namespace Sys2Proof.Machine

/-- In a sound state the buffer is not full: a full one is compressed at once (R20, R83). -/
theorem tail_short {s : State} (h : tailInv s) : s.tail.length < 64 := by
  rw [tailInv] at h
  split at h <;> omega

/-- Raising a fault keeps the invariant: the code recorded is one of R136. -/
theorem raise_inv {s : State} (c : Cause) (h : Inv s) : Inv (s.raise c) := by
  obtain ⟨htail, hlen, -⟩ := h
  obtain ⟨hlo, hhi⟩ := c.code_bounds
  refine ⟨htail, hlen, ⟨nofun, fun h0 => ?_⟩, hhi⟩
  rw [raise_errc] at h0
  rw [h0] at hlo
  cases hlo

/-- PUSH leaves `LEN mod 64` bytes in the buffer: whole blocks are taken out of it (R20, R84). -/
theorem absorbAll_tail_length {s : State} {m : List Byte} (ht : s.tail.length = s.len.toNat % 64)
    (hm : s.len.toNat + m.length ≤ maxLen) :
    (s.absorbAll m).tail.length = (s.absorbAll m).len.toNat % 64 := by
  rw [absorbAll_len_toNat hm, absorbAll_eq m (by omega), List.length_drop, List.length_append]
  omega

/-- A command that passes its checks keeps the count of bytes in the buffer (R20). -/
theorem effect_tailInv {i : Instr} {s : State} (hc : firstFault (checksOf i s) = none)
    (h : tailInv s) : tailInv (effect i s) := by
  cases i with
  | init | final => rfl
  | rddg | cblk blk | rdsr | rdln => exact h
  | ldst d l0 =>
    obtain ⟨hblocks, -⟩ := (ldst_passes_iff d l0 s).mp hc
    exact hblocks.symm
  | push m =>
    obtain ⟨hp, hm⟩ := (push_passes_iff m s).mp hc
    rw [tailInv, if_pos hp] at h
    show tailInv (s.absorbAll m)
    rw [tailInv, absorbAll_phase, if_pos hp]
    exact absorbAll_tail_length h hm

/-- A command that passes its checks keeps the invariant. -/
theorem effect_inv {i : Instr} {s : State} (hc : firstFault (checksOf i s) = none) (h : Inv s) :
    Inv (effect i s) := by
  obtain ⟨htail, hlen, herr⟩ := h
  refine ⟨effect_tailInv hc htail, effect_len_le hc hlen, ?_⟩
  rw [errInv, effect_err, effect_errc]
  exact herr

/-- Every command keeps the invariant. -/
theorem exec_inv {i : Instr} {s t : State} (h : Inv s) (hexec : exec i s = .next t) : Inv t := by
  obtain ⟨-, rfl⟩ | ⟨-, c, -, rfl⟩ | ⟨-, hc, rfl⟩ := exec_cases hexec
  · exact h
  · exact raise_inv c h
  · exact effect_inv hc h

theorem illegalFrame_inv {s : State} (h : Inv s) : Inv s.illegalFrame := by
  rw [illegalFrame_eq]
  split
  · exact h
  · exact raise_inv _ h

/-- A reset leaves the values of R25, which meet the invariant. -/
theorem applyReset_inv (s : State) : Inv s.applyReset :=
  ⟨rfl, Nat.zero_le _, ⟨fun _ => rfl, fun _ => rfl⟩, Nat.zero_le _⟩

/-- Settles O37: an empty buffer outside ACTIVE, length 0, and no fault with code 0. -/
theorem invAtReset : Obligations.InvAtReset :=
  ⟨rfl, Nat.zero_le _, ⟨fun _ => rfl, fun _ => rfl⟩, Nat.zero_le _⟩

/-- Settles O38: the cases of a step; taking a frame touches no register. -/
theorem invKeptByStep : Obligations.InvKeptByStep := by
  intro s t h hstep
  obtain ⟨-, rfl⟩ | ⟨-, -, rfl⟩ | ⟨-, f, rest, why, -, -, rfl⟩ | ⟨-, f, rest, i, -, -, hexec⟩ :=
    step_cases hstep
  · exact applyReset_inv s
  · exact h
  · exact illegalFrame_inv (s := { s with cmdPort := rest }) h
  · exact exec_inv (s := { s with cmdPort := rest }) h hexec

/-- Settles O12: in IDLE the four fail their phase check; only INIT, LDST and FINAL write the phase, and FINAL
is one of the four. -/
theorem resetIsNotInit : Obligations.ResetIsNotInit := by
  refine ⟨fun s i hp he hi => exec_of_fails he (firstFault_of_idle hp hi), ?_⟩
  intro s t i hp h hinit hldst
  obtain ⟨-, rfl⟩ | ⟨-, c, -, rfl⟩ | ⟨-, hc, rfl⟩ := exec_cases h
  · exact hp
  · exact hp
  · have hfinal : i ≠ .final := by
      rintro rfl
      cases (firstFault_of_idle hp (.inr (.inl rfl))).symm.trans hc
    rw [effect_phase s hinit hldst hfinal, hp]

end Sys2Proof.Machine
end

section
/-! PROOFS. The statements about one step and about commands that answer the same from different states: the
two ways to open a computation, and the reads. -/

namespace Sys2Proof.Machine

/-- Settles O6: `step` takes the frame and runs what it decodes to. -/
theorem stepRunsDecodedCommand : Obligations.StepRunsDecodedCommand :=
  fun _ _ _ _ => step_of_command

/-- Settles O7: with no frame to take, `step` answers the state it was given. -/
theorem waitingKeepsState : Obligations.WaitingKeepsState := fun _ => step_of_empty

/-- Settles O8: a reset, a wait, a command and an illegal frame each answer a next state. -/
theorem stepNeverStops : Obligations.StepNeverStops := exists_next_step

/-- Settles O15: LDST of length 0 passes its checks, so both have one effect on `V` by `parse_serialize`; and
both are blocked while `ERR = 1`. -/
theorem ldstOfIvIsInit : Obligations.LdstOfIvIsInit := by
  intro s
  cases he : s.err with
  | true =>
    rw [exec_of_err (i := .ldst (serialize iv) 0#64) he nofun nofun,
      exec_of_err (i := .init) he nofun nofun]
  | false =>
    have hc : firstFault (checksOf (.ldst (serialize iv) 0#64) s) = none :=
      (ldst_passes_iff _ _ s).mpr ⟨rfl, Nat.zero_le _⟩
    rw [exec_of_passes he hc, exec_of_passes (i := .init) he rfl, effect, effect, parse_serialize]

/-- Settles O16: opening a computation overwrites all four fields. -/
theorem openingForgetsTheEarlierComputation : Obligations.OpeningForgetsTheEarlierComputation := by
  intro s v tl len p he
  refine ⟨?init, fun d l0 hblocks hmax => ?ldst⟩
  case init =>
    rw [exec_of_passes (i := .init) he rfl, exec_of_passes (i := .init) (by exact he) rfl]
    rfl
  case ldst =>
    have hc (s : State) : firstFault (checksOf (.ldst d l0) s) = none :=
      (ldst_passes_iff d l0 s).mpr ⟨hblocks, maxLen_eq ▸ hmax⟩
    rw [exec_of_passes he (hc _), exec_of_passes (by exact he) (hc _)]
    rfl

/-- Outside IDLE and with `ERR = 0` each of the three reads puts one response on the port; which one depends
on no response that stands there already (R116, R119, R120). -/
theorem exists_response_of_read {i : Instr} {s : State} (he : s.err = false) (hp : s.phase ≠ .idle)
    (hi : i = .rddg ∨ i = .rdsr ∨ i = .rdln) :
    ∃ r, ∀ q, exec i { s with respPort := q } = .next { s with respPort := q ++ [r] } := by
  obtain rfl | rfl | rfl := hi
  · exact ⟨(serialize s.v).toList, fun q =>
      exec_of_passes (s := { s with respPort := q }) he ((rddg_passes_iff _).mpr hp)⟩
  · exact ⟨toBE32 s.status, fun q => exec_eq .rdsr { s with respPort := q }⟩
  · exact ⟨toBE64 s.len, fun q => exec_eq .rdln { s with respPort := q }⟩

/-- Settles O27: the second read adds the response of the first. -/
theorem readsAreIdempotent : Obligations.ReadsAreIdempotent := by
  intro i s he hp hi
  obtain ⟨r, hr⟩ := exists_response_of_read he hp hi
  refine ⟨r, hr s.respPort, ?_⟩
  rw [hr, List.append_assoc, List.singleton_append]

end Sys2Proof.Machine
end

section
/-! PROOFS. The statements about padding: the blocks of a byte string by their bytes, the layout and the number
of the blocks of a padded string, and that padding loses nothing. -/

namespace Sys2Proof.Machine

/-! Lengths. -/

/-- A padded string is block-aligned when the message agrees with `L` modulo 64 (R79). -/
theorem pad_aligned {m : List Byte} {len : Nat} (h : m.length % 64 = len % 64) :
    (pad m len).length % 64 = 0 := by
  have := padlen_aligned len
  rw [pad_length]
  omega

/-- The last eight bytes as a number (R78). -/
theorem pad_lengthField (m : List Byte) (len : Nat) :
    ((pad m len).drop (m.length + padlen len)).foldl (fun acc b => acc * 256 + b.toNat) 0 =
      8 * len % 2 ^ 64 := by
  rw [pad_drop, foldl_toBE64, BitVec.toNat_ofNat]

/-- Settles O41: the length is that of R78, whose padding is 1 to 64 bytes; below `2^61` the length field does
not wrap. -/
theorem padAlignment : Obligations.PadAlignment := by
  intro m len
  have hlo := padlen_pos len
  have hhi := padlen_le len
  have hlen := pad_length m len
  refine ⟨pad_aligned, by omega, by omega, fun h => ?_⟩
  rw [pad_lengthField, Nat.mod_eq_of_lt (by omega)]

/-- Settles O43: both padded strings end in the same length field, so the messages are as long as each
other, and each is what the same string begins with. -/
theorem padInjective : Obligations.PadInjective := by
  intro m m' hm hm' h
  have hfield (m : List Byte) : m.length + padlen m.length = (pad m m.length).length - 8 := by
    rw [pad_length]
    omega
  have hnum := pad_lengthField m m.length
  rw [hfield, h, ← hfield, pad_lengthField] at hnum
  have hlen : m.length = m'.length := by omega
  rw [← pad_take m m.length, h, hlen, pad_take]

/-! Blocks by their bytes. -/

/-- Settles O42, by induction on the string's blocks: block `k + 1` is block `k` of what follows the first. -/
theorem blocksOfByteString : Obligations.BlocksOfByteString := by
  refine fun s => ⟨blocks_length s, fun k i hk hi => ?_⟩
  induction k generalizing s with
  | zero =>
    obtain ⟨blk, rest, rfl, -⟩ := exists_block (s := s) (by omega)
    refine ⟨blk, by rw [blocks_cons]; rfl, ?_⟩
    rw [Nat.mul_zero, Nat.zero_add, List.getElem?_append_left (by simpa using hi)]
    simp
  | succ k ih =>
    obtain ⟨blk, rest, rfl, hr⟩ := exists_block (s := s) (by omega)
    obtain ⟨b, hb, hbyte⟩ := ih rest (by omega)
    refine ⟨b, by rw [blocks_cons]; exact hb, hbyte.trans ?_⟩
    rw [List.getElem?_append_right (by simp; omega)]
    congr 1
    simp
    omega

/-- A string of 64 bytes is one block. -/
theorem exists_blocks_of_length_64 {s : List Byte} (h : s.length = 64) :
    ∃ p : Block, blocks s = [p] ∧ ∀ i : Nat, p[i]? = s[i]? := by
  obtain ⟨p, rest, rfl, hr⟩ := exists_block (s := s) (by omega)
  obtain rfl : rest = [] := List.length_eq_zero_iff.mp (by omega)
  exact ⟨p, by rw [blocks_cons, blocks_nil], by simp⟩

/-- The bytes of the length field (R78). -/
theorem pad_lengthField_getElem? (m : List Byte) (len k : Nat) :
    (pad m len)[m.length + padlen len + k]? = (toBE64 (BitVec.ofNat 64 (8 * len)))[k]? := by
  rw [← pad_drop, List.getElem?_drop]

theorem pad_message {m : List Byte} {i : Nat} (len : Nat) (h : i < m.length) :
    (pad m len)[i]? = m[i]? := by
  rw [pad_eq, List.getElem?_append_left h]

/-- Settles O44: FINAL's blocks are the 64 or 128 bytes of the padded tail. -/
theorem tailBlocksLayout : Obligations.TailBlocksLayout := by
  intro t len ht
  have hlen := pad_length t len
  refine ⟨fun hr => ?one, fun hr => ?two⟩
  case one =>
    have hp := padlen_of_lt hr
    obtain ⟨p, hblocks, hbyte⟩ := exists_blocks_of_length_64 (s := pad t len) (by omega)
    refine ⟨p, hblocks, fun i hi => ?_, ?_, fun i hlo hhi => ?_, fun k _ => ?_⟩
    · rw [hbyte, pad_message len hi]
    · rw [hbyte, pad_marker]
    · rw [hbyte, pad_zero hlo (by omega)]
    · rw [hbyte, ← pad_lengthField_getElem? t len k]
      congr 1
      omega
  case two =>
    have hp := padlen_of_le hr
    obtain ⟨p, rest, hsplit, hrest⟩ := exists_block (s := pad t len) (by omega)
    obtain ⟨q, hblocks, hbyte⟩ := exists_blocks_of_length_64 (s := rest) (by omega)
    have hfirst {i : Nat} (hi : i < 64) : p[i]? = (pad t len)[i]? := by
      rw [hsplit, List.getElem?_append_left (by simpa using hi)]
      simp
    have hsecond (i : Nat) : q[i]? = (pad t len)[64 + i]? := by
      rw [hbyte, hsplit, List.getElem?_append_right (by simp)]
      simp
    refine ⟨p, q, ?_, fun i hi => ?_, ?_, fun i hlo hhi => ?_, fun i hi => ?_, fun k _ => ?_⟩
    · rw [tailblocks, hsplit, blocks_cons, hblocks]
    · rw [hfirst (by omega), pad_message len hi]
    · rw [hfirst (by omega), pad_marker]
    · rw [hfirst (by omega), pad_zero hlo (by omega)]
    · rw [hsecond, pad_zero (by omega) (by omega)]
    · rw [hsecond, ← pad_lengthField_getElem? t len k]
      congr 1
      omega

/-! A padded message's blocks, and how many they are. -/

/-- Settles O45: padding acts on the end of the message, which its full blocks precede. -/
theorem padDecomposition : Obligations.PadDecomposition := by
  intro m len _
  have hwhole : (m.take (64 * (m.length / 64))).length % 64 = 0 := by
    rw [List.length_take]
    omega
  conv_lhs => rw [← List.take_append_drop (64 * (m.length / 64)) m]
  rw [pad_append, blocks_append _ hwhole, tailblocks]

/-- FINAL compresses one block when the length field fits behind the tail, else two (R81). -/
theorem tailblocks_length {t : List Byte} {len : Nat} (h : t.length = len % 64) :
    (tailblocks t len).length = if len % 64 < 56 then 1 else 2 := by
  rw [tailblocks, blocks_length, pad_length, h]
  split
  next hr => rw [padlen_of_lt hr]; omega
  next hr => rw [padlen_of_le (by omega)]; omega

/-- Settles O46: the message's own full blocks, then FINAL's one or two. -/
theorem compressionCount : Obligations.CompressionCount := by
  intro m
  have htail : (tailblocks (m.drop (64 * (m.length / 64))) m.length).length =
      if m.length % 64 < 56 then 1 else 2 := by
    apply tailblocks_length
    rw [List.length_drop]
    omega
  refine ⟨?_, htail⟩
  rw [padDecomposition m m.length rfl, List.length_append, htail, blocks_take, blocks_length]
  split <;> rfl

end Sys2Proof.Machine
end

section
/-! PROOFS. The statements about PUSH on whole computations, and about who writes `V`. -/

namespace Sys2Proof.Machine

/-- Settles O19: both sides absorb the same bytes in the same order, and the length check of each PUSH passes. -/
theorem pushSplitInvariance : Obligations.PushSplitInvariance := by
  intro s t m1 m2 he hp hm h
  rw [← maxLen_eq] at hm
  have hm1 : s.len.toNat + m1.length ≤ maxLen := by omega
  cases (exec_push_of_passes he hp hm1).symm.trans h
  have hlen := absorbAll_len_toNat hm1
  have hboth : s.len.toNat + (m1 ++ m2).length ≤ maxLen := by
    rw [List.length_append]
    omega
  have he1 : (s.absorbAll m1).err = false := (absorbAll_err s m1).trans he
  have hp1 : (s.absorbAll m1).phase = .active := (absorbAll_phase s m1).trans hp
  rw [exec_push_of_passes he1 hp1 (by omega), exec_push_of_passes he hp hboth, absorbAll_append]
  exact ⟨rfl, he1⟩

/-- On an empty buffer the 64 bytes of a block are compressed at once and leave it empty (R84). -/
theorem absorbAll_block {s : State} (blk : Block) (h : s.tail = []) :
    s.absorbAll blk.toList = { s.compressBlock blk with len := s.len + 64#64 } := by
  have hblocks : blocks (s.tail ++ blk.toList) = [blk] := by
    rw [h, List.nil_append, ← List.append_nil blk.toList, blocks_cons, blocks_nil]
  rw [absorbAll_eq _ (by simp [h]), hblocks, h]
  simp [State.compressBlock, h]

/-- Settles O22: on a block boundary both commands compress the block into `V`. -/
theorem cblkIsPushWithoutCounting : Obligations.CblkIsPushWithoutCounting := by
  intro s blk he hp hl ht hm
  refine ⟨s.compressBlock blk, exec_of_passes he ((cblk_passes_iff blk s).mpr ⟨hp, hl⟩), ?_⟩
  have hlen : s.len.toNat + blk.toList.length ≤ maxLen := by
    rw [Vector.length_toList, maxLen_eq]
    exact hm
  rw [exec_push_of_passes he hp hlen, absorbAll_block blk ht]

/-- PUSH folds the full blocks of buffer and payload into `V` (R84). -/
theorem absorbAll_v {s : State} (m : List Byte) (h : s.tail.length < 64) :
    (s.absorbAll m).v = absorbBlocks s.v
      (blocks ((s.tail ++ m).take (64 * ((s.tail ++ m).length / 64)))) := by
  rw [absorbAll_eq m h, blocks_take]

/-- Settles O34: a command that ends with `ERR = 0` had its effect, whose `V` is read off; FINAL's blocks are
those of a tail of `LEN mod 64` bytes. -/
theorem writersOfV : Obligations.WritersOfV := by
  intro i s t hinv h
  obtain ⟨htail, -, -⟩ := hinv
  refine ⟨fun he => ?faulted, fun ht => ?effect, fun ht hi => ?count⟩
  case faulted =>
    obtain ⟨hv, -⟩ := exec_frame_of_err h he
    exact hv
  case effect =>
    obtain ⟨-, rfl⟩ := effect_of_err_false h ht
    cases i with
    | init | ldst d l0 | final | rddg | cblk blk | rdsr | rdln => rfl
    | push m => exact absorbAll_v m (tail_short htail)
  case count =>
    subst hi
    obtain ⟨hc, -⟩ := effect_of_err_false h ht
    rw [tailInv, if_pos ((final_passes_iff s).mp hc)] at htail
    exact tailblocks_length htail

end Sys2Proof.Machine
end

section
/-! PROOFS. The statement about a faulted block: as long as no reset is asserted it stays faulted, and all it
answers are status words and lengths. -/

namespace Sys2Proof.Machine

/-- No command's effect touches the reset input (R156). -/
@[simp] theorem effect_rst (i : Instr) (s : State) : (effect i s).rst = s.rst := by
  cases i <;> simp [effect]

theorem exec_rst {i : Instr} {s t : State} (h : exec i s = .next t) : t.rst = s.rst := by
  obtain ⟨-, rfl⟩ | ⟨-, c, -, rfl⟩ | ⟨-, -, rfl⟩ := exec_cases h
  · rfl
  · exact raise_rst s c
  · exact effect_rst i s

/-- A response of a faulted block: a status word or a length (R142). -/
def StatusOrLength (r : List Byte) : Prop := r.length = 4 ∨ r.length = 8

/-- While `ERR = 1` a command answers nothing but what RDSR and RDLN answer (R142). -/
theorem exec_respPort_of_err {i : Instr} {s t : State} (he : s.err = true)
    (h : exec i s = .next t) :
    ∃ rs, t.respPort = s.respPort ++ rs ∧ ∀ r ∈ rs, StatusOrLength r := by
  obtain ⟨-, rfl⟩ | ⟨hs, -⟩ | ⟨hs | rfl | rfl, -, rfl⟩ := exec_cases h
  · exact ⟨[], by simp, nofun⟩
  · cases he.symm.trans hs
  · cases he.symm.trans hs
  · exact ⟨_, respond_respPort s _, by simp [StatusOrLength]⟩
  · exact ⟨_, respond_respPort s _, by simp [StatusOrLength]⟩

/-- A step of a faulted block without a reset leaves it faulted, asserts no reset and answers nothing but
status words and lengths. -/
theorem step_of_err {s t : State} (hr : s.rst = false) (he : s.err = true) (h : step s = .next t) :
    t.rst = false ∧ t.err = true ∧
      ∃ rs, t.respPort = s.respPort ++ rs ∧ ∀ r ∈ rs, StatusOrLength r := by
  obtain ⟨hrst, -⟩ | ⟨-, -, rfl⟩ | ⟨-, f, rest, why, -, -, rfl⟩ | ⟨-, f, rest, i, -, -, hexec⟩ :=
    step_cases h
  · exact absurd (hr.symm.trans hrst) Bool.false_ne_true
  · exact ⟨hr, he, [], by simp, nofun⟩
  · rw [illegalFrame_eq, if_pos he]
    exact ⟨hr, he, [], by simp, nofun⟩
  · obtain ⟨herr, -⟩ := exec_keeps_fault (s := { s with cmdPort := rest }) he hexec
    exact ⟨(exec_rst hexec).trans hr, herr,
      exec_respPort_of_err (s := { s with cmdPort := rest }) he hexec⟩

/-- A run of a faulted block, by induction on its steps. -/
theorem run_of_err (k : Nat) {s t : State} (hr : s.rst = false) (he : s.err = true)
    (h : Host.Core.run core k s = .next t) :
    t.err = true ∧ ∃ rs, t.respPort = s.respPort ++ rs ∧ ∀ r ∈ rs, StatusOrLength r := by
  induction k generalizing s with
  | zero =>
    cases h
    exact ⟨he, [], by simp, nofun⟩
  | succ k ih =>
    obtain ⟨u, hu⟩ := exists_next_step s
    rw [run_succ k hu] at h
    obtain ⟨hru, heu, rs, hport, hrs⟩ := step_of_err hr he hu
    obtain ⟨het, rs', hport', hrs'⟩ := ih hru heu h
    refine ⟨het, rs ++ rs', by rw [hport', hport, List.append_assoc], fun r hmem => ?_⟩
    exact (List.mem_append.mp hmem).elim (hrs r) (hrs' r)

/-- An event of a run leaves a faulted block faulted, asserts no reset and issues no digest. -/
theorem next_of_err {u w : Session} {e : Event} (hr : u.block.rst = false)
    (he : u.block.err = true) (h : u.next e = .next w) :
    w.block.rst = false ∧ w.block.err = true ∧ w.digestAt = u.digestAt := by
  obtain ⟨f, -, rfl⟩ | ⟨-, -, rfl⟩ | ⟨-, r, rest, -, rfl⟩ | ⟨-, t, ht, rfl⟩ := next_cases h
  · exact ⟨hr, he, rfl⟩
  · exact ⟨hr, he, rfl⟩
  · exact ⟨hr, he, rfl⟩
  · obtain ⟨hrt, het, -⟩ := step_of_err hr he ht
    exact ⟨hrt, het, if_neg (by simp [issuesDigest_of_err he])⟩

/-- Settles O33, by induction on the steps and on the events of a run. -/
theorem faultedNeverDelivers : Obligations.FaultedNeverDelivers := by
  refine ⟨fun k s t hr he h => run_of_err k hr he h, fun es => ?_⟩
  induction es with
  | nil =>
    intro u w _ he h
    cases h
    exact ⟨he, rfl⟩
  | cons e es ih =>
    intro u w hr he h
    cases hn : u.next e with
    | next x =>
      rw [play_cons hn] at h
      obtain ⟨hrx, hex, hx⟩ := next_of_err hr he hn
      obtain ⟨hew, hw⟩ := ih x w hrx hex h
      exact ⟨hew, hw.trans hx⟩
    | fault r => simp only [Session.play, hn] at h; cases h
    | refused r => simp only [Session.play, hn] at h; cases h

end Sys2Proof.Machine
end

section
/-! PROOFS. The statements about words: rotation, the permutations `P0` and `P1`, the functions GG and FF, the
round constants, and the worked example of a compression. -/

namespace Sys2Proof.Machine

/-! Rotation. -/

/-- Bits from the most significant end move up by the amount, around the end of the word. -/
theorem rotl_getMsbD (x : Word) (n i : Nat) (h : i < 32) :
    (rotl x n).getMsbD i = x.getMsbD ((n + i) % 32) := by
  rw [rotl, BitVec.getMsbD_rotateLeft, decide_eq_true h, Bool.true_and]

theorem rotl_mod (x : Word) (n : Nat) : rotl x (n % 32) = rotl x n :=
  BitVec.rotateLeft_mod_eq_rotateLeft

/-- A rotation by whole words is none. -/
theorem rotl_mul_32 (x : Word) (k : Nat) : rotl x (32 * k) = x := by
  apply BitVec.eq_of_getMsbD_eq
  intro i hi
  rw [rotl_getMsbD _ _ _ hi, Nat.mul_add_mod, Nat.mod_eq_of_lt hi]

/-- Amounts of successive rotations add up. -/
theorem rotl_rotl (x : Word) (a b : Nat) : rotl (rotl x a) b = rotl x (a + b) := by
  apply BitVec.eq_of_getMsbD_eq
  intro i hi
  rw [rotl_getMsbD _ _ _ hi, rotl_getMsbD _ _ _ (Nat.mod_lt _ (by decide)), rotl_getMsbD _ _ _ hi]
  congr 1
  omega

theorem rotl_xor (x y : Word) (n : Nat) : rotl (x ^^^ y) n = rotl x n ^^^ rotl y n := by
  apply BitVec.eq_of_getMsbD_eq
  intro i hi
  simp only [BitVec.getMsbD_xor, rotl_getMsbD _ _ _ hi]

/-- The bits shifted up, and those that came around below them. -/
theorem rotl_toNat {n : Nat} (x : Word) (h : n < 32) :
    (rotl x n).toNat = x.toNat * 2 ^ n % 2 ^ 32 + x.toNat / 2 ^ (32 - n) := by
  have hpow : 2 ^ 32 = 2 ^ (32 - n) * 2 ^ n := (pow_sub_mul_pow 2 h.le).symm
  have hlow : x.toNat / 2 ^ (32 - n) < 2 ^ n := by
    rw [Nat.div_lt_iff_lt_mul (Nat.two_pow_pos _), Nat.mul_comm, ← hpow]
    exact x.isLt
  have hhigh : x.toNat * 2 ^ n % 2 ^ 32 = 2 ^ n * (x.toNat % 2 ^ (32 - n)) := by
    rw [hpow, Nat.mul_mod_mul_right, Nat.mul_comm]
  rw [rotl, BitVec.toNat_rotateLeft, Nat.mod_eq_of_lt h, Nat.shiftLeft_eq, Nat.shiftRight_eq_div_pow,
    hhigh, Nat.two_pow_add_eq_or_of_lt hlow]

theorem rotl_getLsbD {n i : Nat} (x : Word) (hn : n < 32) (hi : i < 32) :
    (rotl x n).getLsbD ((i + n) % 32) = x.getLsbD i := by
  rw [rotl, BitVec.getLsbD_rotateLeft_of_le hn]
  by_cases hwrap : i + n < 32
  · rw [Nat.mod_eq_of_lt hwrap]
    simp [hwrap]
  · have hmod : (i + n) % 32 = i + n - 32 := by omega
    have hlt : i + n - 32 < n := by omega
    have hback : 32 - n + (i + n - 32) = i := by omega
    simp [hmod, hlt, hback]

/-- Settles O47: the number and the bits of a rotated word. -/
theorem rotlFormula : Obligations.RotlFormula :=
  fun x _ hn => ⟨rotl_toNat x hn, fun _ hi => rotl_getLsbD x hn hi⟩

/-! The permutations. -/

/-- The common form of `P0` and `P1`: a word XOR two of its rotations. -/
def rotXor (a b : Nat) (x : Word) : Word := x ^^^ rotl x a ^^^ rotl x b

theorem P0_eq_rotXor : P0 = rotXor 9 17 := rfl

theorem P1_eq_rotXor : P1 = rotXor 15 23 := rfl

theorem rotXor_xor (a b : Nat) (x y : Word) :
    rotXor a b (x ^^^ y) = rotXor a b x ^^^ rotXor a b y := by
  simp only [rotXor, rotl_xor]
  ac_rfl

/-- Applied twice, the mixed rotations cancel and the amounts double: the square of a polynomial over GF(2). -/
theorem rotXor_rotXor (a b : Nat) (x : Word) :
    rotXor a b (rotXor a b x) = rotXor (2 * a) (2 * b) x := by
  have hmixed : rotl x (b + a) = rotl x (a + b) := by rw [Nat.add_comm]
  calc rotXor a b (rotXor a b x)
      = x ^^^ rotl x (a + a) ^^^ rotl x (b + b) ^^^ (rotl x a ^^^ rotl x a)
          ^^^ (rotl x b ^^^ rotl x b) ^^^ (rotl x (a + b) ^^^ rotl x (a + b)) := by
        simp only [rotXor, rotl_xor, rotl_rotl, hmixed]
        ac_rfl
    _ = rotXor (2 * a) (2 * b) x := by
        simp only [BitVec.xor_self, BitVec.xor_zero, rotXor, Nat.two_mul]

/-- After five doublings the amounts are multiples of 32, and what is left is the identity. -/
theorem rotXor_mul_32 (a b : Nat) : rotXor (32 * a) (32 * b) = id := by
  funext x
  rw [rotXor, rotl_mul_32, rotl_mul_32, BitVec.xor_self, BitVec.zero_xor, id]

theorem rotXor_bijective_of_double {a b : Nat} (h : (rotXor (2 * a) (2 * b)).Bijective) :
    (rotXor a b).Bijective := by
  have hsquare : rotXor a b ∘ rotXor a b = rotXor (2 * a) (2 * b) := funext (rotXor_rotXor a b)
  rw [← hsquare] at h
  exact ⟨h.injective.of_comp, h.surjective.of_comp⟩

theorem rotXor_bijective (a b : Nat) : (rotXor a b).Bijective := by
  have hdoubled (k : Nat) (h : (rotXor (2 ^ k * a) (2 ^ k * b)).Bijective) :
      (rotXor a b).Bijective := by
    induction k with
    | zero => simpa using h
    | succ k ih =>
      rw [Nat.pow_succ', Nat.mul_assoc, Nat.mul_assoc] at h
      exact ih (rotXor_bijective_of_double h)
  refine hdoubled 5 ?_
  rw [show 2 ^ 5 = 32 from rfl, rotXor_mul_32]
  exact Function.bijective_id

/-- Settles O51: both are of the form whose square has doubled amounts. -/
theorem permutationsAreBijections : Obligations.PermutationsAreBijections :=
  ⟨rotXor_bijective 9 17, rotXor_bijective 15 23⟩

/-! The Boolean functions. -/

/-- In rounds 0..15 GG is GG0 (R68). -/
theorem GG_of_lt {j : Nat} (h : j < 16) (x y z : Word) : GG j x y z = x ^^^ y ^^^ z := if_pos h

/-- In rounds 16..63 GG is GG1 (R68). -/
theorem GG_of_le {j : Nat} (h : 16 ≤ j) (x y z : Word) :
    GG j x y z = (x &&& y) ||| (~~~x &&& z) := if_neg (Nat.not_lt.mpr h)

/-- GG1 on one bit chooses by the first. -/
theorem or_and_not_eq_ite (a b c : Bool) : (a && b || !a && c) = if a then b else c := by
  revert a b c
  decide

/-- Settles O49: both functions act on each bit alone, and GG1's first bit chooses between the others. -/
theorem parityAndChoice : Obligations.ParityAndChoice := by
  intro j x y z i hi
  constructor
  · intro hj
    rw [GG_of_lt hj, BitVec.getLsbD_xor, BitVec.getLsbD_xor]
  · intro hj
    rw [← or_and_not_eq_ite, GG_of_le hj]
    simp [hi]

/-- FF1 with XOR for OR: the pairs that are set are one or three. -/
theorem or_and_pairs_eq_xor (x y z : Word) :
    (x &&& y) ||| (x &&& z) ||| (y &&& z) = (x &&& y) ^^^ (x &&& z) ^^^ (y &&& z) := by
  ext i
  simp only [BitVec.getElem_or, BitVec.getElem_and, BitVec.getElem_xor]
  cases x[i] <;> cases y[i] <;> cases z[i] <;> rfl

/-- GG1 with XOR for OR: the two terms exclude each other. -/
theorem or_and_not_eq_xor (x y z : Word) :
    (x &&& y) ||| (~~~x &&& z) = (x &&& y) ^^^ (~~~x &&& z) := by
  ext i
  simp only [BitVec.getElem_or, BitVec.getElem_and, BitVec.getElem_xor, BitVec.getElem_not]
  cases x[i] <;> simp

/-- GG1 without a negation: `z`, corrected where `x` chooses `y` and they differ. -/
theorem or_and_not_eq_xor_and (x y z : Word) :
    (x &&& y) ||| (~~~x &&& z) = z ^^^ (x &&& (y ^^^ z)) := by
  ext i
  simp only [BitVec.getElem_or, BitVec.getElem_and, BitVec.getElem_xor, BitVec.getElem_not]
  cases x[i] <;> cases y[i] <;> cases z[i] <;> rfl

/-- Settles O50: the laws of rotation, `P0` and `P1` by their common form, the Boolean functions by their bits. -/
theorem wordLaws : Obligations.WordLaws := by
  refine ⟨fun x a b _ _ => ?rotations, fun x y n _ => rotl_xor x y n,
    fun x y => ⟨rotXor_xor 9 17 x y, rotXor_xor 15 23 x y⟩, fun j x y z hj => ?booleans⟩
  case rotations => rw [rotl_rotl, rotl_mod]
  case booleans =>
    rw [FF_of_le hj, GG_of_le hj]
    exact ⟨or_and_pairs_eq_xor x y z, or_and_not_eq_xor x y z, or_and_not_eq_xor_and x y z⟩

/-! Fixed values. -/

/-- Settles O52: the two constants by their ranges, the table by evaluation. -/
theorem roundConstants : Obligations.RoundConstants :=
  ⟨fun _ hj => if_pos (Nat.lt_succ_of_le hj), fun _ hj _ => if_neg (Nat.not_lt.mpr hj), by decide⟩

set_option maxRecDepth 100000 in
/-- Settles O55, by evaluation of the one compression. -/
theorem compressKnownAnswer : Obligations.CompressKnownAnswer := by
  unfold Obligations.CompressKnownAnswer
  decide

end Sys2Proof.Machine
end

section
/-! PROOFS. The statements about whole computations: the command sequences HASH and FORGE, sent as frames, and
length extension. -/

namespace Sys2Proof.Machine

/-! Commands and the command port. -/

/-- Absorbing a byte reads and writes no port. -/
theorem absorb_setCmdPort (s : State) (b : Byte) (fs : List Frame) :
    ({ s with cmdPort := fs } : State).absorb b = { s.absorb b with cmdPort := fs } := by
  unfold State.absorb
  split <;> rfl

theorem absorbAll_setCmdPort (s : State) (m : List Byte) (fs : List Frame) :
    ({ s with cmdPort := fs } : State).absorbAll m = { s.absorbAll m with cmdPort := fs } := by
  induction m generalizing s with
  | nil => rfl
  | cons b m ih => rw [absorbAll_cons, absorbAll_cons, absorb_setCmdPort, ih]

/-- No command's effect reads or writes the command port (R39, R40). -/
theorem effect_setCmdPort (i : Instr) (s : State) (fs : List Frame) :
    effect i { s with cmdPort := fs } = { effect i s with cmdPort := fs } := by
  cases i with
  | push m => exact absorbAll_setCmdPort s m fs
  | init | ldst d l0 | final | rddg | cblk blk | rdsr | rdln => rfl

theorem checksOf_setCmdPort (i : Instr) (s : State) (fs : List Frame) :
    checksOf i { s with cmdPort := fs } = checksOf i s := by
  cases i <;> rfl

/-! Sequences of commands that all pass their checks. -/

/-- The effects of commands, one after the other. -/
def effects (is : List Instr) (s : State) : State := is.foldl (fun s i => effect i s) s

@[simp] theorem effects_nil (s : State) : effects [] s = s := rfl

@[simp] theorem effects_cons (i : Instr) (is : List Instr) (s : State) :
    effects (i :: is) s = effects is (effect i s) := rfl

theorem effects_append (is js : List Instr) (s : State) :
    effects (is ++ js) s = effects js (effects is s) := List.foldl_append

/-- Every command of the list has a frame and passes its checks where its turn comes. -/
def AllPass : List Instr → State → Prop
  | [], _ => True
  | i :: is, s =>
    i.wellFormed = true ∧ firstFault (checksOf i s) = none ∧ AllPass is (effect i s)

theorem AllPass.append {is js : List Instr} {s : State} (h : AllPass is s)
    (hj : AllPass js (effects is s)) : AllPass (is ++ js) s := by
  induction is generalizing s with
  | nil => exact hj
  | cons i is ih =>
    obtain ⟨hw, hc, hrest⟩ := h
    exact ⟨hw, hc, ih hrest hj⟩

/-- Commands that all pass, sent as frames, have their effects and empty the command port. -/
theorem runCommands_of_allPass {is : List Instr} {s : State} (he : s.err = false)
    (hr : s.rst = false) (h : AllPass is s) :
    runCommands s is = .next { effects is s with cmdPort := [] } := by
  rw [runCommands, runFrames, List.length_map]
  induction is generalizing s with
  | nil => rfl
  | cons i is ih =>
    obtain ⟨hw, hc, hrest⟩ := h
    have hc' : firstFault (checksOf i { s with cmdPort := is.map encode }) = none :=
      (checksOf_setCmdPort i s _).symm ▸ hc
    have hstep : step { s with cmdPort := (i :: is).map encode } =
        .next { effect i s with cmdPort := is.map encode } := by
      rw [step_of_command (s := { s with cmdPort := (i :: is).map encode }) hr rfl
        (decodeOfEncode i hw), exec_of_passes (s := { s with cmdPort := is.map encode }) he hc',
        effect_setCmdPort]
    rw [List.length_cons, run_succ _ hstep]
    exact ih ((effect_err i s).trans he) ((effect_rst i s).trans hr) hrest

/-! PUSHALL. -/

/-- The pieces of PUSHALL are absorbed as one string (R57). -/
theorem effects_pushAllUpTo (fuel : Nat) (m : List Byte) (s : State) :
    effects (pushAllUpTo fuel m) s = s.absorbAll m := by
  induction fuel generalizing m s with
  | zero => rfl
  | succ fuel ih =>
    rw [pushAllUpTo]
    split
    · rfl
    · rw [effects_cons, ih, effect, ← absorbAll_append, List.take_append_drop]

theorem push_wellFormed {m : List Byte} (h : m.length ≤ maxPush) :
    (Instr.push m).wellFormed = true := decide_eq_true h

/-- In ACTIVE and within `MAXLEN`, every piece of PUSHALL fits a frame and is accepted. -/
theorem allPass_pushAllUpTo {fuel : Nat} {m : List Byte} {s : State} (hp : s.phase = .active)
    (hm : s.len.toNat + m.length ≤ maxLen) (hfuel : m.length ≤ (fuel + 1) * maxPush) :
    AllPass (pushAllUpTo fuel m) s := by
  induction fuel generalizing m s with
  | zero =>
    exact ⟨push_wellFormed (by omega), (push_passes_iff m s).mpr ⟨hp, hm⟩, trivial⟩
  | succ fuel ih =>
    rw [pushAllUpTo]
    split
    next hfit => exact ⟨push_wellFormed hfit, (push_passes_iff m s).mpr ⟨hp, hm⟩, trivial⟩
    next hlong =>
      have htake : (m.take maxPush).length = maxPush := by
        rw [List.length_take]
        omega
      have hfirst : s.len.toNat + (m.take maxPush).length ≤ maxLen := by omega
      refine ⟨push_wellFormed htake.le, (push_passes_iff _ s).mpr ⟨hp, hfirst⟩, ih ?_ ?_ ?_⟩
      · exact (absorbAll_phase s _).trans hp
      · rw [effect, absorbAll_len_toNat hfirst, List.length_drop]
        omega
      · rw [List.length_drop]
        rw [Nat.succ_mul] at hfuel
        omega

theorem effects_pushAll (m : List Byte) (s : State) : effects (pushAll m) s = s.absorbAll m :=
  effects_pushAllUpTo _ m s

theorem allPass_pushAll {m : List Byte} {s : State} (hp : s.phase = .active)
    (hm : s.len.toNat + m.length ≤ maxLen) : AllPass (pushAll m) s := by
  refine allPass_pushAllUpTo hp hm ?_
  rw [Nat.mul_comm]
  exact (Nat.lt_mul_div_succ m.length (by decide)).le

/-! The two sequences. -/

/-- Absorbing a message into an open computation with an empty buffer and closing it folds the blocks of the
padded message into `V`, when the length opened with is one of whole blocks (R82, R86). -/
theorem finish_absorbAll_v {s : State} {m : List Byte} (ht : s.tail = [])
    (hl : s.len.toNat % 64 = 0) (hm : s.len.toNat + m.length ≤ maxLen) :
    (s.absorbAll m).finish.v = absorbBlocks s.v (blocks (pad m (s.len.toNat + m.length))) := by
  have hs : s.tail.length < 64 := by simp [ht]
  have htail : (s.absorbAll m).tail = m.drop (64 * (m.length / 64)) := by
    rw [absorbAll_eq m hs, ht, List.nil_append]
  rw [finish_v, absorbAll_v m hs, htail, absorbAll_len_toNat hm, ← absorbBlocks_append, ht,
    List.nil_append, padDecomposition m _ (by omega)]

/-- A computation: opened with `v` and a length of whole blocks, given a message within `MAXLEN`, closed and
read, all sent as frames. -/
theorem run_computation {s : State} {i : Instr} {v : ChainState} {l0 : BitVec 64} {m : List Byte}
    (he : s.err = false) (hr : s.rst = false) (hw : i.wellFormed = true)
    (hc : firstFault (checksOf i s) = none) (hi : effect i s = s.openWith v l0)
    (hl : l0.toNat % 64 = 0) (hm : l0.toNat + m.length ≤ maxLen) :
    ∃ t, runCommands s (i :: pushAll m ++ [.final, .rddg]) = .next t ∧
      t.respPort = s.respPort ++
        [(serialize (absorbBlocks v (blocks (pad m (l0.toNat + m.length))))).toList] ∧
      t.err = false ∧ t.phase = .fin ∧ t.len = l0 + BitVec.ofNat 64 m.length ∧ Ended t := by
  have hpush : AllPass (pushAll m) (s.openWith v l0) := allPass_pushAll rfl hm
  have hpass : AllPass (i :: pushAll m ++ [.final, .rddg]) s := by
    refine ⟨hw, hc, AllPass.append (hi ▸ hpush) ?_⟩
    rw [effects_pushAll, hi]
    refine ⟨rfl, (final_passes_iff _).mpr (absorbAll_phase _ m), rfl, ?_, trivial⟩
    exact (rddg_passes_iff _).mpr nofun
  have heffects : effects (i :: pushAll m ++ [.final, .rddg]) s =
      effect .rddg ((s.openWith v l0).absorbAll m).finish := by
    rw [List.cons_append, effects_cons, hi, effects_append, effects_pushAll]
    rfl
  have hv : ((s.openWith v l0).absorbAll m).finish.v =
      absorbBlocks v (blocks (pad m (l0.toNat + m.length))) :=
    finish_absorbAll_v (s := s.openWith v l0) rfl hl hm
  refine ⟨_, runCommands_of_allPass he hr hpass, ?_, ?_, ?_, ?_, rfl⟩
  all_goals rw [heffects, effect]
  · rw [hv]
    simp
  · simpa using he
  · simp
  · simp [absorbAll_len]

/-- Settles O57: INIT opens with the initialization vector and length 0. -/
theorem hashSequenceComputesSm3 : Obligations.HashSequenceComputesSm3 := by
  intro s m he hr hm
  obtain ⟨t, hrun, hport, herr, hphase, hlen, hended⟩ :=
    run_computation (i := .init) (v := iv) (l0 := 0#64) (m := m) he hr rfl rfl rfl rfl
      (by simpa [maxLen_eq] using hm)
  refine ⟨t, hrun, ?_, herr, hphase, ?_, hended⟩
  · rw [hport, BitVec.toNat_ofNat, Nat.zero_mod, Nat.zero_add, sm3]
  · rw [hlen, BitVec.zero_add]

/-- Settles O58: LDST opens with the parsed digest and a length of whole blocks. -/
theorem forgeSequenceComputesForge : Obligations.ForgeSequenceComputesForge := by
  intro s d len suffix he hr hm
  have hl0 : (BitVec.ofNat 64 (prefixlen len)).toNat = prefixlen len := by
    rw [BitVec.toNat_ofNat, Nat.mod_eq_of_lt (by omega)]
  have hblocks : (BitVec.ofNat 64 (prefixlen len)).toNat % 64 = 0 := by
    rw [hl0]
    exact padlen_aligned len
  rw [← maxLen_eq, ← hl0] at hm
  have hc : firstFault (checksOf (.ldst d (BitVec.ofNat 64 (prefixlen len))) s) = none :=
    (ldst_passes_iff _ _ s).mpr ⟨hblocks, by omega⟩
  obtain ⟨t, hrun, hport, herr, hphase, -, hended⟩ := run_computation he hr rfl hc rfl hblocks hm
  exact ⟨t, hrun, by rw [hport, hl0, forge], herr, hphase, hended⟩

/-- Settles O59: LDST's parse undoes the serializer, and the padded secret is whole blocks. -/
theorem lengthExtension : Obligations.LengthExtension := by
  intro x suffix
  have hlen : prefixlen x.length + suffix.length = (pad x x.length ++ suffix).length := by
    rw [List.length_append, pad_length, prefixlen]
  rw [forge, sm3, sm3, parse_serialize, ← absorbBlocks_append, hlen, pad_append,
    blocks_append _ (pad_aligned rfl)]

end Sys2Proof.Machine
end
